-- ==== Sys2Proof/Word.lean ====
section
/-! DEFINITION. The word types of HLL-RU: the widths the spec gives its fields and words. -/

namespace Sys2Proof

/-- One register of the array `M`: `REG_W = 8` bits (R5). -/
abbrev Byte := BitVec 8

/-- One word of the hash, and the index operand of `RDREG`: 32 bits (R32, R53). -/
abbrev Word32 := BitVec 32

/-- A binary64 bit pattern, and the data field of a response: 64 bits (R7, R56). -/
abbrev Word64 := BitVec 64

/-- The 96-bit remainder examined for the rank (R71). -/
abbrev Remainder := BitVec 96

/-- The 128-bit hash, and the payload of a command (R32, R50). -/
abbrev Hash := BitVec 128

/-- A command word, `CMD_W = 136` bits (R50). -/
abbrev CmdWord := BitVec 136

/-- A response word, `RSP_W = 66` bits (R56). -/
abbrev RspWord := BitVec 66

end Sys2Proof
end

