-- ==== Sys2Proof/Config.lean ====
section
/-! DEFINITION. What an instance of the block fixes at elaboration (`P`, `RANK_CAP`), and the free values: what the spec
leaves to IEEE 754's latitude or to the host's numerics. A free value is an opaque constant: nothing can prove what it is. -/

namespace Sys2Proof

/-- The parameters of one instance (R3, R6), each carrying the proof that it is legal, so that an instance the spec says
does not exist (R9) cannot be written. -/
structure Params where
  /-- `P`, the document's `precision`: how many top bits of `word[0]` select the register (R3). -/
  P : Nat
  /-- `RANK_CAP`, the largest rank (R6: 97; a model may take it as an argument in `1..97`). -/
  rankCap : Nat
  P_legal : 1 ≤ P ∧ P ≤ 32
  rankCap_legal : 1 ≤ rankCap ∧ rankCap ≤ 97
deriving DecidableEq, Repr

/-- `NB = 2^P`, the number of registers (R4). -/
abbrev Params.NB (p : Params) : Nat := 2 ^ p.P

/-- FREE VALUE. The sign and payload bits of the NaN that an invalid operation, or an operation on a NaN, answers: IEEE 754
fixes only that it is a quiet NaN. No run of the block reaches one (R15, R79). -/
opaque Config.nanBits : Word64 → Word64 → Word64

/-- FREE VALUE. The host's natural logarithm at every operand but 1 (R122: only `ln(1) = +0` is assumed). -/
opaque Config.lnOpen : Word64 → Word64

/-- FREE VALUE. The integer `count` answers when `S` is not positive or its estimate is not finite, which the spec leaves
undecided
(R112 d, N19, U16): a function of `NB`, `S` and `Z`. -/
opaque Config.countOpen : Nat → Word64 → Nat → Int

end Sys2Proof
end

