-- ==== Sys2Proof/Syntax.lean ====
section
/-! DEFINITION. The commands: one constructor per row of the opcode table. -/

namespace Sys2Proof

/-- The six commands of the opcode map (R52). Every operand is a whole field of the command word. -/
inductive Instr where
  /-- `ADDN`: add with an absent hash (R91). The payload is ignored, so the command has no operand (R53 d). -/
  | addn
  /-- `ADD w0, w1, w2, w3`: add one hashed element; `w0` is `word[0]`, the most significant (R90, R51). -/
  | add (w0 w1 w2 w3 : Word32)
  /-- `INIT`: back to the construction state (R100). -/
  | init
  /-- `RDREG idx`: read one register (R101). -/
  | rdreg (idx : Word32)
  /-- `RDSUM`: read `S` (R102). -/
  | rdsum
  /-- `RDZC`: read `Z` (R103). -/
  | rdzc
deriving DecidableEq, Repr

end Sys2Proof
end

