-- ==== Sys2Proof/Machine/State.lean ====
section
/-! DEFINITION. The state of the machine, its responses and port events, the reasons to stop, and the state after reset. -/

namespace Sys2Proof.Machine

/-- The status of a response (R56). The fourth code, `0b11`, is never produced and has no constructor (U12). -/
inductive Status where
  /-- `0b00`: the command was executed. -/
  | ok
  /-- `0b01`: the command word was illegal by R54; nothing was done (R141). -/
  | illegal
  /-- `0b10`: `RDREG` with `idx >= NB`; nothing was done (R142). -/
  | range
deriving DecidableEq, Repr

/-- A response: its status and its 64 bits of data (R56). -/
structure Response where
  status : Status
  data : Word64
deriving DecidableEq, Repr

/-- What the host does at the port, in one sequence (R39, R160): a command word the port accepts, or a reset. -/
inductive PortEvent where
  | command (word : CmdWord)
  | reset
deriving DecidableEq, Repr

/-- The reasons a step stops with a fault. The block itself has none (R140). -/
inductive Fault where
  /-- Raised by the register array's read and write (`State.readReg`, `State.writeReg`) for an index `>= NB`: the address
  space holds nothing there (R30, R38). Safe: the model stops where the hardware has no behaviour. No command in any
  state raises it, since `ADD`'s index is in range (R35) and `RDREG` answers `RANGE` first (R142). -/
  | noSuchRegister (index : Nat)
deriving DecidableEq, Repr

/-- The reasons a step refuses. -/
inductive Refusal where
  /-- Raised by `exec`'s arm of an instruction that has no meaning yet. Safe: the model stops. No arm raises it here:
  every command has its meaning. -/
  | notModelled (mnemonic : String)
deriving DecidableEq, Repr

/-- The state. The block's own is the triple `(M, S, Z)` of spec/10_state.md; `params` is the instance's configuration,
which no step changes; `pending` and `responses` are the two sides of the command port. -/
structure State where
  /-- `P` and `RANK_CAP` of this instance (R3, R6). -/
  params : Params
  /-- `M`: the registers that are not zero, as (index, value) pairs with rising indices (R10). A register not listed
  holds 0, its reset value (R20). -/
  mem : List Host.Cell
  /-- `S`, the bits of `sumOfInverses` (R13). -/
  sum : Word64
  /-- `Z`, `countZeroBuckets`, an unsigned integer of `P + 1` bits (R16). -/
  zeros : Nat
  /-- What the port has accepted and the block has not performed yet, oldest first (R39). MODEL's own field (R18). -/
  pending : List PortEvent
  /-- The responses delivered so far, oldest first (R57). MODEL's own field: the observation of a run (R167). -/
  responses : List Response
deriving DecidableEq, Repr

/-- The binary64 pattern of `2^P`: sign 0, exponent field `1023 + P`, fraction 0 (R20). -/
def resetSum (p : Params) : Word64 := BitVec.ofNat 64 ((1023 + p.P) * 2 ^ 52)

/-- The state after reset of the instance with parameters `p` (R20, R160), the port empty. -/
def State.resetOf (p : Params) : State :=
  { params := p, mem := [], sum := resetSum p, zeros := p.NB, pending := [], responses := [] }

/-- DESIGN CHOICE (log entry 1). The parameters of the one instance `State.reset` stands for: `P = 4`, since the host's interface asks
for one reset state and the spec fixes no `P` (R3); `RANK_CAP = 97` (R6). -/
def resetParams : Params :=
  { P := 4, rankCap := 97, P_legal := ⟨by decide, by decide⟩, rankCap_legal := ⟨by decide, by decide⟩ }

/-- The machine right after reset. -/
def State.reset : State := State.resetOf resetParams

end Sys2Proof.Machine
end

