-- ==== Sys2Proof/Machine/Flags.lean ====
section
/-! DEFINITION. The block has no flags, condition codes or sticky status (R19). What stands in their place is the status of
each response: its code, and the response as a word (R56). -/

namespace Sys2Proof.Machine

/-- The two-bit code of a status (R56). -/
def Status.code : Status → BitVec 2
  | .ok => 0b00
  | .illegal => 0b01
  | .range => 0b10

/-- `Q`: `st = Q[65:64]`, `data = Q[63:0]` (R56). -/
def Response.word (r : Response) : RspWord := r.status.code ++ r.data

end Sys2Proof.Machine
end

