-- ==== Sys2Proof/Machine/Float64.lean ====
section
/-! DEFINITION. IEEE 754 binary64, round to nearest, ties to even (R7, G1): each operation is computed exactly on integers
and rounded once. A finite number is an integer multiple of `2^-1074`, the least positive subnormal; `scaled` gives
that integer. No flags, no traps, gradual underflow (R79). PRESUMED from IEEE 754 (G1, log entry 7): infinities, NaNs and the
sign of an exact zero, none of which but `+0` arises in a run. -/

namespace Sys2Proof.Machine.Float64

/-- The sign bit. -/
def sign (x : Word64) : Bool := x.getLsbD 63

/-- The exponent field, bits 62:52. -/
def expField (x : Word64) : Nat := (x.extractLsb' 52 11).toNat

/-- The fraction field, bits 51:0. -/
def fraction (x : Word64) : Nat := (x.extractLsb' 0 52).toNat

def isNaN (x : Word64) : Bool := expField x == 2047 && fraction x != 0

def isInf (x : Word64) : Bool := expField x == 2047 && fraction x == 0

def isFinite (x : Word64) : Bool := expField x != 2047

/-- The magnitude of `x` in units of `2^-1074`: the significand, with its hidden one when `x` is normal, shifted by
its exponent. An infinity gets the magnitude the next exponent would have, above every finite one. -/
def magnitude (x : Word64) : Nat :=
  if expField x = 0 then fraction x else (2 ^ 52 + fraction x) * 2 ^ (expField x - 1)

/-- The value of `x` in units of `2^-1074`. -/
def scaled (x : Word64) : Int := if sign x then -(magnitude x : Int) else magnitude x

/-- 1 in units of `2^-1074`. -/
abbrev unit : Nat := 2 ^ 1074

def posZero : Word64 := 0x0000000000000000
def negZero : Word64 := 0x8000000000000000
def posInf : Word64 := 0x7FF0000000000000

/-- The bits of the infinity's magnitude: exponent field 2047, fraction 0. -/
def infBits : Nat := 2047 * 2 ^ 52

/-- Division of `n` by `d`, rounded to the nearest integer, ties to the even one. -/
def divNearestEven (n d : Nat) : Nat :=
  let q := n / d
  let r := n % d
  if 2 * r < d then q
  else if d < 2 * r then q + 1
  else if q % 2 = 0 then q else q + 1

/-- How many low bits of a magnitude of integer part `q` do not fit the 53-bit significand. -/
def excessBits (q : Nat) : Nat := if q < 2 ^ 53 then 0 else Nat.log2 q - 52

/-- The exponent and fraction fields, as one number, of the positive value `n / d` (in units of `2^-1074`) rounded to
nearest even. With `s` excess bits the significand `m` (its hidden one included) stands for `m * 2^s`, and its fields are
`s * 2^52 + m`: a significand that rounds up to `2^53` carries into the exponent. Past the largest finite number, infinity. -/
def roundMagnitude (n d : Nat) : Nat :=
  let s := excessBits (n / d)
  min (s * 2 ^ 52 + divNearestEven n (d * 2 ^ s)) infBits

/-- A sign and the exponent and fraction fields, as one word. -/
def pack (neg : Bool) (fields : Nat) : Word64 :=
  BitVec.ofNat 64 ((if neg then 2 ^ 63 else 0) + fields)

/-- The quiet NaN of an operation on `a` and `b`: exponent field 2047 and the fraction's top bit set; sign and payload free
(log entry 6). -/
def quietNaN (a b : Word64) : Word64 :=
  0x7FF8000000000000 ||| (Config.nanBits a b &&& 0x8007FFFFFFFFFFFF)

/-- The exact integer `x` (in units of `2^-1074`), rounded; `zeroNeg` is the sign of an exact zero. -/
def roundScaled (x : Int) (zeroNeg : Bool) : Word64 :=
  if x = 0 then pack zeroNeg 0 else pack (decide (x < 0)) (roundMagnitude x.natAbs 1)

/-- The sum `a + b` (R78): exact, then rounded once. An exact zero sum is `+0` unless both operands are `-0`. -/
def fadd (a b : Word64) : Word64 :=
  if isNaN a || isNaN b then quietNaN a b
  else if isInf a then (if isInf b && sign a != sign b then quietNaN a b else a)
  else if isInf b then b
  else roundScaled (scaled a + scaled b) (sign a && sign b)

/-- `x` with its sign bit inverted. -/
def negate (x : Word64) : Word64 := x ^^^ negZero

/-- The difference `a - b` (R77): an exact zero difference of equal operands is `+0`. -/
def fsub (a b : Word64) : Word64 := fadd a (negate b)

/-- The product `a * b` (host numerics, R122). -/
def fmul (a b : Word64) : Word64 :=
  let neg := sign a != sign b
  if isNaN a || isNaN b then quietNaN a b
  else if isInf a || isInf b then
    (if magnitude a = 0 || magnitude b = 0 then quietNaN a b else pack neg infBits)
  else pack neg (roundMagnitude (magnitude a * magnitude b) unit)

/-- The quotient `a / b` (host numerics, R122): a non-zero number over a zero is an infinity. -/
def fdiv (a b : Word64) : Word64 :=
  let neg := sign a != sign b
  if isNaN a || isNaN b then quietNaN a b
  else if isInf a then (if isInf b then quietNaN a b else pack neg infBits)
  else if isInf b then pack neg 0
  else if magnitude b = 0 then (if magnitude a = 0 then quietNaN a b else pack neg infBits)
  else pack neg (roundMagnitude (magnitude a * unit) (magnitude b))

/-- The integer square root of a number below `4^k`, two bits of the operand for each bit of the root. -/
def isqrt : Nat → Nat → Nat
  | 0, _ => 0
  | k + 1, n =>
    let r := 2 * isqrt k (n / 4)
    if (r + 1) * (r + 1) ≤ n then r + 1 else r

/-- The square root, correctly rounded (host numerics, R122; PRESUMED from IEEE 754, G4, log entry 10). The operand is `m` units, so the root is the root of
`m * 2^1074` in units; 60 bits of the root are computed, and a sticky half stands for what lies below them. -/
def fsqrt (a : Word64) : Word64 :=
  if isNaN a then quietNaN a a
  else if magnitude a = 0 then a
  else if sign a then quietNaN a a
  else if isInf a then a
  else
    let n := magnitude a * unit
    let j := (Nat.log2 n - 118) / 2
    let top := n / 4 ^ j
    let r := isqrt 60 top
    let sticky := if r * r * 4 ^ j = n then 0 else 1
    pack false (roundMagnitude ((2 * r + sticky) * 2 ^ j) 2)

/-- `a < b`. False when either is a NaN. -/
def flt (a b : Word64) : Bool := !isNaN a && !isNaN b && decide (scaled a < scaled b)

/-- The double nearest to the rational `n / d`: how a decimal literal is read (DESIGN CHOICE, log entry 12). -/
def ofRatio (n d : Nat) : Word64 := pack false (roundMagnitude (n * unit) d)

/-- The double nearest to the natural number `n`. -/
def ofNat (n : Nat) : Word64 := ofRatio n 1

/-- `floor x` of a finite `x`. -/
def floor (x : Word64) : Int := scaled x / (unit : Int)

/-- `pow2neg(r) = 2^(-r)`: sign 0, exponent field `1023 - r`, fraction 0 (R76). DEDUCED (log entry 8): the same
formula above 97, which no register of a run exceeds. -/
def pow2neg (r : Nat) : Word64 := BitVec.ofNat 64 ((1023 - r) * 2 ^ 52)

end Sys2Proof.Machine.Float64
end

