-- ==== Sys2Proof/Decode.lean ====
section
/-! DEFINITION. Decoding a command word (R50 to R54, R59), encoding a command (R51, R60), and the opcode table's rows. -/

namespace Sys2Proof

/-- Why a command word is illegal (R54). -/
inductive Illegal where
  /-- (a) `op` is in `0x06..0xFF`. -/
  | reservedOpcode (op : BitVec 8)
  /-- (b) `INIT`, `RDSUM` or `RDZC` (its `op` is given) with a non-zero payload. -/
  | payloadNotZero (op : BitVec 8)
  /-- (c) `RDREG` with `pl[127:32] != 0`. -/
  | indexTooWide
deriving DecidableEq, Repr

/-- What the decoder answers: a command, or a rejection by name. -/
inductive Decoded where
  | instr (i : Instr)
  | illegal (why : Illegal)
deriving DecidableEq, Repr

/-- `op = C[135:128]` (R50). -/
def opField (c : CmdWord) : BitVec 8 := c.extractLsb' 128 8

/-- `pl = C[127:0]` (R50). -/
def plField (c : CmdWord) : BitVec 128 := c.extractLsb' 0 128

/-- A command that takes no operand: its payload must be zero (R53 c). -/
def decodeBare (i : Instr) (c : CmdWord) : Decoded :=
  if plField c = 0 then .instr i else .illegal (.payloadNotZero (opField c))

/-- `decode(C)`, with the checks in the spec's order (R59). -/
def decode (c : CmdWord) : Decoded :=
  if opField c = 0x00 then .instr .addn
  else if opField c = 0x01 then
    .instr (.add ((plField c).extractLsb' 96 32) ((plField c).extractLsb' 64 32)
      ((plField c).extractLsb' 32 32) ((plField c).extractLsb' 0 32))
  else if opField c = 0x02 then decodeBare .init c
  else if opField c = 0x03 then
    if (plField c).extractLsb' 32 96 = 0 then .instr (.rdreg ((plField c).extractLsb' 0 32))
    else .illegal .indexTooWide
  else if opField c = 0x04 then decodeBare .rdsum c
  else if opField c = 0x05 then decodeBare .rdzc c
  else .illegal (.reservedOpcode (opField c))

/-- The hash of four words, `word[0]` most significant (R32). -/
def hashOf (w0 w1 w2 w3 : Word32) : Hash := w0 ++ w1 ++ w2 ++ w3

/-- A command word of an opcode and a payload (R50). -/
def commandWord (op : BitVec 8) (pl : BitVec 128) : CmdWord := op ++ pl

/-- The word the assembler emits for a command (R60): unused payload bits are zero. -/
def encode : Instr → CmdWord
  | .addn => commandWord 0x00 0
  | .add w0 w1 w2 w3 => commandWord 0x01 (hashOf w0 w1 w2 w3)
  | .init => commandWord 0x02 0
  | .rdreg idx => commandWord 0x03 (idx.setWidth 128)
  | .rdsum => commandWord 0x04 0
  | .rdzc => commandWord 0x05 0

/-- The mask of a command's row in the table under R59. -/
def rowMask : Instr → CmdWord
  | .addn => 0xFF00000000000000000000000000000000
  | .add _ _ _ _ => 0xFF00000000000000000000000000000000
  | .init => 0xFFFFFFFFFFFFFFFFFFFFFFFFFFFFFFFFFF
  | .rdreg _ => 0xFFFFFFFFFFFFFFFFFFFFFFFFFF00000000
  | .rdsum => 0xFFFFFFFFFFFFFFFFFFFFFFFFFFFFFFFFFF
  | .rdzc => 0xFFFFFFFFFFFFFFFFFFFFFFFFFFFFFFFFFF

/-- The match value of a command's row in the table under R59. -/
def rowMatch : Instr → CmdWord
  | .addn => 0x0000000000000000000000000000000000
  | .add _ _ _ _ => 0x0100000000000000000000000000000000
  | .init => 0x0200000000000000000000000000000000
  | .rdreg _ => 0x0300000000000000000000000000000000
  | .rdsum => 0x0400000000000000000000000000000000
  | .rdzc => 0x0500000000000000000000000000000000

/-- The 136-bit word of an instruction whose lowest `nbits` bits are those of `w` and whose other bits are zero. A
command is one word, so the table's numbering of bits is the word's own (R50, R55). -/
def tableWord (nbits w : Nat) : CmdWord := BitVec.ofNat 136 (w % 2 ^ nbits)

/-- The instruction the decoder reads from a word of the opcode table. -/
def decodeTableWord (nbits w : Nat) : Option Instr :=
  match decode (tableWord nbits w) with
  | .instr i => some i
  | .illegal _ => none

end Sys2Proof
end

