-- ==== Sys2Proof/Machine/Operands.lean ====
section
/-! DEFINITION. What `ADD` computes from its hash: the bucket indexer (R70), the rank extractor (R71 to R74) and the
register updater's maximum (R75). None reads state. -/

namespace Sys2Proof.Machine

/-- `word[0] = H[127:96]` (R32). -/
def word0 (h : Hash) : Word32 := h.extractLsb' 96 32
/-- `word[1] = H[95:64]` (R32). -/
def word1 (h : Hash) : Word32 := h.extractLsb' 64 32
/-- `word[2] = H[63:32]` (R32). -/
def word2 (h : Hash) : Word32 := h.extractLsb' 32 32
/-- `word[3] = H[31:0]` (R32). -/
def word3 (h : Hash) : Word32 := h.extractLsb' 0 32

/-- `bucket_of(H) = word[0] >> (32 - P)`, a logical shift (R70). -/
def bucketOf (p : Params) (h : Hash) : Nat := (word0 h >>> (32 - p.P)).toNat

/-- `T(H) = H[95:0]` (R71). -/
def remainder (h : Hash) : Remainder := h.extractLsb' 0 96

/-- The zero bits met scanning the top `n` bits of `t` from the lowest of them upward, stopping at the first set bit. -/
def scanZeros (t : Remainder) : Nat → Nat
  | 0 => 0
  | n + 1 => if t.getLsbD (95 - n) then 0 else 1 + scanZeros t n

/-- `ctz96(T)` (R72); 96 when no bit is set. -/
def ctz96 (t : Remainder) : Nat := scanZeros t 96

/-- `rank_of(H) = min(1 + ctz96(T(H)), RANK_CAP)` (R73). -/
def rankOf (p : Params) (h : Hash) : Nat := min (1 + ctz96 (remainder h)) p.rankCap

/-- The zero bits above the most significant set bit of the low `n` bits of `x`. -/
def leadingZeros (x : Remainder) : Nat → Nat
  | 0 => 0
  | n + 1 => if x.getLsbD n then 0 else 1 + leadingZeros x n

/-- `lzc96(X)` (R74); 96 when no bit is set. -/
def lzc96 (x : Remainder) : Nat := leadingZeros x 96

/-- `rev96(T)`: bit `95 - i` of the result is bit `i` of `T` (R74). -/
def rev96 (t : Remainder) : Remainder := t.reverse

/-- The zeros below the lowest set bit of a word, scanned over its top `n` bits; for a word with a set bit and `n = 32`,
`ctz32` of R74's word-wise formulation. -/
def scanWord (w : Word32) : Nat → Nat
  | 0 => 0
  | n + 1 => if w.getLsbD (31 - n) then 0 else 1 + scanWord w n

/-- The word-wise formulation of the zero count (R74): `word[3]`, then `word[2]`, then `word[1]`. -/
def ctzByWords (h : Hash) : Nat :=
  if word3 h ≠ 0 then scanWord (word3 h) 32
  else if word2 h ≠ 0 then 32 + scanWord (word2 h) 32
  else if word1 h ≠ 0 then 64 + scanWord (word1 h) 32
  else 96

/-- `max8(a, b)`, compared as unsigned (R75). -/
def max8 (a b : Byte) : Byte := if a < b then b else a

/-- The rank, zero-extended to a register's 8 bits (R75). -/
def rankByte (p : Params) (h : Hash) : Byte := BitVec.ofNat 8 (rankOf p h)

end Sys2Proof.Machine
end

