-- ==== Sys2Proof/Machine/Ops.lean ====
section
/-! DEFINITION. The named operations on the register array, the two aggregates and the port. The block has no exception
entry and no return from one (R140, R145, R146): a refused command is a response like any other (`State.respond`). -/

namespace Sys2Proof.Machine

/-- What a register that nothing has written since reset holds: its reset value (R20, log entry 17). -/
def unlisted : Byte := 0

/-- The value at index `a`. -/
def Memory.read : List Host.Cell → Nat → Byte
  | [], _ => unlisted
  | (b, v) :: rest, a => if b = a then v else Memory.read rest a

/-- Store `v` at index `a`, keeping the canonical form: writing the value an unlisted index reads as removes the entry. -/
def Memory.write : List Host.Cell → Nat → Byte → List Host.Cell
  | [], a, v => if v = unlisted then [] else [(a, v)]
  | (b, u) :: rest, a, v =>
    if b < a then (b, u) :: Memory.write rest a v
    else if b = a then (if v = unlisted then rest else (a, v) :: rest)
    else (if v = unlisted then (b, u) :: rest else (a, v) :: (b, u) :: rest)

/-- The canonical form, for entries at `least` and above: indices strictly rise, and no entry holds what an unlisted
index reads as. -/
def Memory.wfFrom : Nat → List Host.Cell → Bool
  | _, [] => true
  | least, (a, v) :: rest => decide (least ≤ a) && (v != unlisted && Memory.wfFrom (a + 1) rest)

/-- The canonical form of a memory. -/
def Memory.wf (m : List Host.Cell) : Bool := Memory.wfFrom 0 m

/-- `M[i]`, for an index the array has (R30). -/
def State.readReg (s : State) (i : Nat) : Except Fault Byte :=
  if i < s.params.NB then .ok (Memory.read s.mem i) else .error (.noSuchRegister i)

/-- `M[i] <- v`, for an index the array has (R30). -/
def State.writeReg (s : State) (i : Nat) (v : Byte) : Except Fault State :=
  if i < s.params.NB then .ok { s with mem := Memory.write s.mem i v } else .error (.noSuchRegister i)

/-- `S <- fadd(S, fsub(pow2neg(new), pow2neg(old)))`: the difference first, then the sum, each rounded (R78, R90). -/
def accumulate (sum : Word64) (old new : Byte) : Word64 :=
  Float64.fadd sum (Float64.fsub (Float64.pow2neg new.toNat) (Float64.pow2neg old.toNat))

/-- `S <- v`. -/
def State.setSum (s : State) (v : Word64) : State := { s with sum := v }

/-- `Z - 1`, an unsigned subtraction on `P + 1` bits (R80). DEDUCED (log entry 15): it wraps where `Z` is 0, which no run meets
with a zero register (R17). -/
def decrement (p : Params) (z : Nat) : Nat := (z + (2 ^ (p.P + 1) - 1)) % 2 ^ (p.P + 1)

/-- `if new != 0 and old = 0 then Z <- Z - 1` (R90). -/
def State.countLeavingZero (s : State) (old new : Byte) : State :=
  { s with zeros := if new ≠ 0 ∧ old = 0 then decrement s.params s.zeros else s.zeros }

/-- The state transformer that reset and `INIT` share: every register 0, `S` and `Z` at `2^P` (R20, R100, R160, R161). -/
def State.clear (s : State) : State :=
  { s with mem := [], sum := resetSum s.params, zeros := s.params.NB }

/-- `respond(st, d)`: deliver one response, after all earlier ones (R56, R57). -/
def State.respond (s : State) (st : Status) (d : Word64) : State :=
  { s with responses := s.responses ++ [{ status := st, data := d }] }

end Sys2Proof.Machine
end

