-- ==== Sys2Proof/Machine/Add.lean ====
section
/-! DEFINITION. The update commands, `ADD` and `ADDN` (spec/41_add.md). -/

namespace Sys2Proof.Machine

/-- `ADDN`: a no-op that answers `OK` (R91). -/
def execAddn (s : State) : Host.Outcome State Fault Refusal := .next (s.respond .ok 0)

/-- The five steps of `add` on one hash (R90), in the spec's order. -/
def State.addHash (s : State) (h : Hash) : Except Fault State :=
  let b := bucketOf s.params h
  match s.readReg b with
  | .error f => .error f
  | .ok old =>
    let new := max8 old (rankByte s.params h)
    ((s.setSum (accumulate s.sum old new)).countLeavingZero old new).writeReg b new

/-- `ADD w0, w1, w2, w3` (R90). -/
def execAdd (w0 w1 w2 w3 : Word32) (s : State) : Host.Outcome State Fault Refusal :=
  match s.addHash (hashOf w0 w1 w2 w3) with
  | .error f => .fault f
  | .ok t => .next (t.respond .ok 0)

end Sys2Proof.Machine
end

