-- ==== Sys2Proof/Machine/InitRead.lean ====
section
/-! DEFINITION. The construction command `INIT` and the read commands `RDREG`, `RDSUM`, `RDZC` (spec/42_init_read.md). -/

namespace Sys2Proof.Machine

/-- `INIT`: back to the construction state (R100). -/
def execInit (s : State) : Host.Outcome State Fault Refusal := .next (s.clear.respond .ok 0)

/-- `RDREG idx`: the register, zero-extended, or `RANGE` for an index outside the array (R101, R142). -/
def execRdreg (idx : Word32) (s : State) : Host.Outcome State Fault Refusal :=
  if s.params.NB ≤ idx.toNat then .next (s.respond .range 0)
  else
    match s.readReg idx.toNat with
    | .error f => .fault f
    | .ok v => .next (s.respond .ok (v.setWidth 64))

/-- `RDSUM`: the 64 bits of `S` (R102). -/
def execRdsum (s : State) : Host.Outcome State Fault Refusal := .next (s.respond .ok s.sum)

/-- `RDZC`: `Z`, zero-extended (R103). -/
def execRdzc (s : State) : Host.Outcome State Fault Refusal := .next (s.respond .ok (BitVec.ofNat 64 s.zeros))

end Sys2Proof.Machine
end

