-- ==== Sys2Proof/Machine/Dispatch.lean ====
section
/-! DEFINITION. Which meaning each command has. -/

namespace Sys2Proof.Machine

-- One whole command, performed as one indivisible action (R36, R39).
def exec (i : Instr) (s : State) : Host.Outcome State Fault Refusal :=
  match i with
  | .addn => Sys2Proof.Machine.execAddn s
  | .add w0 w1 w2 w3 => Sys2Proof.Machine.execAdd w0 w1 w2 w3 s
  | .init => Sys2Proof.Machine.execInit s
  | .rdreg idx => Sys2Proof.Machine.execRdreg idx s
  | .rdsum => Sys2Proof.Machine.execRdsum s
  | .rdzc => Sys2Proof.Machine.execRdzc s

end Sys2Proof.Machine
end

