-- ==== Sys2Proof/Machine/Port.lean ====
section
/-! DEFINITION. The command port: presenting a command, taking the next event, and the answer to an illegal word. -/

namespace Sys2Proof.Machine

/-- The host presents `w` as the very next command (R57). -/
def State.present (s : State) (w : CmdWord) : State := { s with pending := .command w :: s.pending }

/-- The state once the port has taken an event and `rest` still waits. -/
def State.take (s : State) (rest : List PortEvent) : State := { s with pending := rest }

/-- The answer to an illegal command word: nothing is done, status `ILLEGAL`, data 0 (R54, R141). -/
def State.refuseIllegal (s : State) : State := s.respond .illegal 0

end Sys2Proof.Machine
end

