-- ==== Sys2Proof/Machine/Step.lean ====
section
/-! DEFINITION. One step: the block takes the next event of the port and performs it to completion (R39). -/

namespace Sys2Proof.Machine

/-- One step. DESIGN CHOICE (log entries 2 to 4): the port's sequence is taken from its head, the response is delivered with the
command, and an empty port leaves the state as it is. A command word is decoded (R59) and executed, or answered `ILLEGAL` (R141); a reset clears the block and
answers nothing (R160). With nothing at the port the block waits: its state changes only by a command or a reset (R22). -/
def step (s : State) : Host.Outcome State Fault Refusal :=
  match s.pending with
  | [] => .next s
  | .reset :: rest => .next (s.take rest).clear
  | .command w :: rest =>
    match decode w with
    | .illegal _ => .next (s.take rest).refuseIllegal
    | .instr i => exec i (s.take rest)

/-- `s` with the instruction of `w`'s low `nbits` bits at the head of the port's sequence, where `step` takes it next. -/
def State.withFetchWord (s : State) (nbits w : Nat) : State := s.present (tableWord nbits w)

end Sys2Proof.Machine
end

