-- ==== Sys2Proof/WellFormed.lean ====
section
/-! DEFINITION. The checks: which parameters make an instance, and which of the assembler's source lines can be assembled. A term of `Instr`
needs no check of its own: each operand has exactly its field's width, and no operand value is reserved (R51, R53). -/

namespace Sys2Proof

/-- R9: an instance exists only for `P` in `1..32` and `RANK_CAP` in `1..97`. -/
abbrev Params.Legal (P rankCap : Nat) : Prop := (1 ≤ P ∧ P ≤ 32) ∧ (1 ≤ rankCap ∧ rankCap ≤ 97)

/-- Elaboration of an instance: it refuses illegal parameters (R9, U2, U3). -/
def Params.elaborate (P rankCap : Nat) : Option Params :=
  if h : Params.Legal P rankCap then
    some { P := P, rankCap := rankCap, P_legal := h.1, rankCap_legal := h.2 }
  else none

/-- One source line of the assembler (R60) or a pseudo-command (R61). Numbers are as written, of any size:
`Source.wellFormed` says which fit. -/
inductive Source where
  | addn
  | add (w0 w1 w2 w3 : Nat)
  | init
  | rdreg (idx : Nat)
  | rdsum
  | rdzc
  /-- `NOP`: another name of `ADDN`. -/
  | nop
  /-- `ADDH h`: an `ADD` of one 128-bit number. -/
  | addh (h : Nat)
  /-- `DUMP`: `RDREG 0` to `RDREG NB-1`. -/
  | dump
  /-- `.cmd x`: the 136-bit word `x` as it stands. -/
  | cmd (x : Nat)
deriving DecidableEq, Repr

/-- R60, R61: every number of a source line fits the field it is written into. -/
def Source.wellFormed : Source → Bool
  | .addn => true
  | .add w0 w1 w2 w3 => w0 < 2 ^ 32 && w1 < 2 ^ 32 && w2 < 2 ^ 32 && w3 < 2 ^ 32
  | .init => true
  | .rdreg idx => idx < 2 ^ 32
  | .rdsum => true
  | .rdzc => true
  | .nop => true
  | .addh h => h < 2 ^ 128
  | .dump => true
  | .cmd x => x < 2 ^ 136

end Sys2Proof
end

