-- ==== Sys2Proof/Machine/Assembler.lean ====
section
/-! DEFINITION. The assembler: what each source line expands to (R60, R61), and the reading of one line of text (R60).
DESIGN CHOICE (log entry 13): what the rule does not say of the text (blanks, the case of hexadecimal digits). -/

namespace Sys2Proof.Machine

/-- A 32-bit operand as written. -/
def word32 (n : Nat) : Word32 := BitVec.ofNat 32 n

/-- The `ADD` of one 128-bit number (R61). -/
def addOfHash (h : Hash) : Instr :=
  .add (h.extractLsb' 96 32) (h.extractLsb' 64 32) (h.extractLsb' 32 32) (h.extractLsb' 0 32)

/-- The command words of a source line whose numbers fit (R60, R61), for an instance with parameters `p`. -/
def expandSource (p : Params) : Source → List CmdWord
  | .addn => [encode .addn]
  | .add w0 w1 w2 w3 => [encode (.add (word32 w0) (word32 w1) (word32 w2) (word32 w3))]
  | .init => [encode .init]
  | .rdreg idx => [encode (.rdreg (word32 idx))]
  | .rdsum => [encode .rdsum]
  | .rdzc => [encode .rdzc]
  | .nop => [encode .addn]
  | .addh h => [encode (addOfHash (BitVec.ofNat 128 h))]
  | .dump => (List.range p.NB).map fun i => encode (.rdreg (word32 i))
  | .cmd x => [BitVec.ofNat 136 x]

/-- The command words of a source line; none if a number does not fit its field. -/
def assembleSource (p : Params) (src : Source) : Option (List CmdWord) :=
  if src.wellFormed then some (expandSource p src) else none

/-- The value of a digit in a base, `10` or `16`. -/
def digitOf (base : Nat) (c : Char) : Option Nat :=
  let n := c.toNat
  let d := if 48 ≤ n ∧ n ≤ 57 then n - 48
    else if 65 ≤ n ∧ n ≤ 70 then n - 55
    else if 97 ≤ n ∧ n ≤ 102 then n - 87
    else base
  if d < base then some d else none

/-- Digits read from the left onto `acc`. -/
def digitsOf (base : Nat) : Nat → List Char → Option Nat
  | acc, [] => some acc
  | acc, c :: rest =>
    match digitOf base c with
    | some d => digitsOf base (acc * base + d) rest
    | none => none

/-- A number: decimal, or hexadecimal with `0x` (R60). -/
def numberOf : List Char → Option Nat
  | [] => none
  | ['0', 'x'] => none
  | '0' :: 'x' :: ds => digitsOf 16 0 ds
  | ds => digitsOf 10 0 ds

def isBlank (c : Char) : Bool := c == ' ' || c == '\t' || c == '\r'

/-- A text without the blanks at its two ends. -/
def trimBlanks (cs : List Char) : List Char := ((cs.dropWhile isBlank).reverse.dropWhile isBlank).reverse

/-- A text cut at its commas. -/
def splitCommas : List Char → List (List Char)
  | [] => [[]]
  | c :: rest =>
    if c = ',' then [] :: splitCommas rest
    else
      match splitCommas rest with
      | [] => [[c]]
      | part :: parts => (c :: part) :: parts

/-- The numbers of a list of operand texts; none if one is no number. -/
def numbersOf : List (List Char) → Option (List Nat)
  | [] => some []
  | t :: ts =>
    match numberOf (trimBlanks t), numbersOf ts with
    | some n, some ns => some (n :: ns)
    | _, _ => none

/-- The operands of a command: an empty text has none. -/
def operandsOf (cs : List Char) : Option (List Nat) :=
  if trimBlanks cs = [] then some [] else numbersOf (splitCommas cs)

/-- The source line of a mnemonic and its operands (R60, R61). -/
def sourceOf (mnemonic : List Char) (ops : List Nat) : Option Source :=
  match mnemonic, ops with
  | ['A', 'D', 'D', 'N'], [] => some .addn
  | ['A', 'D', 'D'], [w0, w1, w2, w3] => some (.add w0 w1 w2 w3)
  | ['I', 'N', 'I', 'T'], [] => some .init
  | ['R', 'D', 'R', 'E', 'G'], [idx] => some (.rdreg idx)
  | ['R', 'D', 'S', 'U', 'M'], [] => some .rdsum
  | ['R', 'D', 'Z', 'C'], [] => some .rdzc
  | ['N', 'O', 'P'], [] => some .nop
  | ['A', 'D', 'D', 'H'], [h] => some (.addh h)
  | ['D', 'U', 'M', 'P'], [] => some .dump
  | ['.', 'c', 'm', 'd'], [x] => some (.cmd x)
  | _, _ => none

/-- One line of text (R60): a comment runs from `;` to the end. Answers none for a line that is no command, and the
empty line of commands for a line that holds only blanks and a comment. -/
def parseLine (line : List Char) : Option (List Source) :=
  let text := trimBlanks (line.takeWhile (· != ';'))
  if text = [] then some []
  else
    let mnemonic := text.takeWhile (fun c => !isBlank c)
    match operandsOf (text.drop mnemonic.length) with
    | some ops => (sourceOf mnemonic ops).map fun src => [src]
    | none => none

/-- The command words of a program's lines, in order; none if a line is no command or a number does not fit. -/
def assembleLines (p : Params) : List (List Char) → Option (List CmdWord)
  | [] => some []
  | line :: rest =>
    match parseLine line, assembleLines p rest with
    | some [], some ws => some ws
    | some (src :: _), some ws => (assembleSource p src).map (· ++ ws)
    | _, _ => none

end Sys2Proof.Machine
end

