-- ==== Sys2Proof/Machine/HostFunctions.lean ====
section
/-! DEFINITION. The host-side functions over read-out state (spec/43_host_functions.md): `alpha`, `count`, `relativeError`,
`merge`, the rescan, snapshot and restore. None is a command and no step calls them; they are in binary64, one rounding per
operation (R122). -/

namespace Sys2Proof.Machine

open Float64

/-- `ln` of the host's numerics: `ln(1) = +0` exactly, otherwise free (R122, log entry 10). -/
def hostLn (x : Word64) : Word64 := if x = ofNat 1 then posZero else Config.lnOpen x

/-- `alpha(NB) = 0.7213 / (1 + 1.079 / NB) * NB^2`, left to right (R110). -/
def alpha (nb : Nat) : Word64 :=
  let t1 := fdiv (ofRatio 1079 1000) (ofNat nb)
  let t2 := fadd (ofNat 1) t1
  let t3 := fdiv (ofRatio 7213 10000) t2
  let t4 := fmul (ofNat nb) (ofNat nb)
  fmul t3 t4

/-- `rawEstimate = alpha(NB) / S` (R111). -/
def rawEstimate (nb : Nat) (sum : Word64) : Word64 := fdiv (alpha nb) sum

/-- Whether the small-range correction applies (R111; the comparison is strict, R112 c). -/
def smallRange (nb : Nat) (sum : Word64) (zeros : Nat) : Bool :=
  decide (1 ≤ zeros) && flt (rawEstimate nb sum) (fmul (ofRatio 5 2) (ofNat nb))

/-- The estimate before it is rounded to an integer (R111). -/
def estimate (nb : Nat) (sum : Word64) (zeros : Nat) : Word64 :=
  if smallRange nb sum zeros then fmul (ofNat nb) (hostLn (fdiv (ofNat nb) (ofNat zeros)))
  else rawEstimate nb sum

/-- `count(NB, S, Z) = floor(estimate + 0.5)` (R111). Where `S` is not positive, or the estimate not finite, the spec leaves
the result undecided (R112 d, N19, U16): a free value (DESIGN CHOICE, log entry 11). A finite estimate above `2^53` keeps its
own value (R112 e); N19 and U16 leave the integer type of the result open there, and the model's is the unbounded `Int`
(DESIGN CHOICE, log entry 21). -/
def count (nb : Nat) (sum : Word64) (zeros : Nat) : Int :=
  let x := fadd (estimate nb sum zeros) (ofRatio 1 2)
  if 0 < scaled sum ∧ isFinite x then Float64.floor x else Config.countOpen nb sum zeros

/-- `relativeError(NB) = 1.04 / sqrt(NB)` (R114). -/
def relativeError (nb : Nat) : Word64 := fdiv (ofRatio 104 100) (fsqrt (ofNat nb))

/-- A host sketch value `K = (p, M, S, Z, alpha)` (R120). -/
structure Sketch where
  precision : Nat
  regs : List Byte
  sum : Word64
  zeros : Nat
  alpha : Word64
deriving DecidableEq, Repr

/-- A well-formed sketch: a legal precision, an array of `2^p` registers, `alpha` of its own `NB`, and ranks within the
cap (R3, R10, R11, R110). The aggregates are whatever the sketch carries. -/
def sketchWf (k : Sketch) : Bool :=
  decide (1 ≤ k.precision ∧ k.precision ≤ 32) && k.regs.length == 2 ^ k.precision &&
    k.regs.all (fun v => decide (v.toNat ≤ 97)) && k.alpha == alpha (2 ^ k.precision)

/-- Register `i` of an array; 0 outside it, which no well-formed merge reads (DESIGN CHOICE, log entry 16). -/
def regAt (regs : List Byte) (i : Nat) : Byte := regs.getD i 0

/-- The number of zero registers of an array (R118). -/
def countZeros (regs : List Byte) : Nat := regs.countP (· == 0)

/-- `Σ 2^(-regs[j])`, in binary64 from `+0`, ascending index, one rounding per addition (R118). -/
def rescanSum (regs : List Byte) : Word64 := regs.foldl (fun s v => fadd s (pow2neg v.toNat)) posZero

/-- Both aggregates recomputed from the array (R118). -/
def rescan (k : Sketch) : Sketch := { k with sum := rescanSum k.regs, zeros := countZeros k.regs }

/-- The receiver's array reduced by `2^k` and joined with the other's `n` registers (R116). -/
def reduceRegs (k n : Nat) (recv other : List Byte) : List Byte :=
  (List.range n).map fun j =>
    (List.range (2 ^ k)).foldl (fun m t => max8 m (regAt recv (j * 2 ^ k + t))) (regAt other j)

/-- The other's registers folded down by `2^k` into the receiver's array, in ascending index (R117). -/
def foldRegs (k : Nat) (recv other : List Byte) : List Byte :=
  (List.range other.length).foldl
    (fun m i => m.set (i / 2 ^ k) (max8 (regAt m (i / 2 ^ k)) (regAt other i))) recv

/-- `merge(recv, other)`: the new value of the receiver (R115 to R118). -/
def merge (recv other : Sketch) : Sketch :=
  if other.precision < recv.precision then
    rescan { recv with
      precision := other.precision
      regs := reduceRegs (recv.precision - other.precision) (2 ^ other.precision) recv.regs other.regs
      alpha := alpha (2 ^ other.precision) }
  else rescan { recv with regs := foldRegs (other.precision - recv.precision) recv.regs other.regs }

/-- The read commands of a snapshot: `RDREG 0` to `RDREG NB-1`, `RDSUM`, `RDZC` (R120). -/
def snapshotCommands (p : Params) : List Instr :=
  (List.range p.NB).map (fun i => .rdreg (BitVec.ofNat 32 i)) ++ [.rdsum, .rdzc]

/-- The sketch a snapshot's response data stand for (R120). -/
def sketchOfData (p : Params) (data : List Word64) : Sketch :=
  { precision := p.P
    regs := (data.take p.NB).map (·.setWidth 8)
    sum := data.getD p.NB 0
    zeros := (data.getD (p.NB + 1) 0).toNat
    alpha := alpha p.NB }

/-- The sketch the block holds (R120). -/
def State.sketch (s : State) : Sketch :=
  { precision := s.params.P
    regs := (List.range s.params.NB).map (Memory.read s.mem)
    sum := s.sum
    zeros := s.zeros
    alpha := alpha s.params.NB }

/-- The remainder whose rank is `r`, for `r` in `1..97` (R121). -/
def syntheticRemainder (r : Nat) : Remainder := if r ≤ 96 then BitVec.ofNat 96 (2 ^ (r - 1)) else 0

/-- The `ADD` whose bucket is `b` and whose rank is `r` (R121). -/
def syntheticAdd (p : Params) (b r : Nat) : Instr :=
  let t := syntheticRemainder r
  .add (BitVec.ofNat 32 (b * 2 ^ (32 - p.P))) (t.extractLsb' 64 32) (t.extractLsb' 32 32) (t.extractLsb' 0 32)

/-- The synthetic `ADD`s of a saved array of precision `P + k`: one for each register that is not zero (R121).
DESIGN CHOICE (log entry 20): in ascending index, where the rule says only "for each `i`". -/
def syntheticAdds (p : Params) (k : Nat) (regs : List Byte) : List Instr :=
  ((List.range regs.length).filter (fun i => regAt regs i != 0)).map
    fun i => syntheticAdd p (i / 2 ^ k) (regAt regs i).toNat

/-- Putting a saved array of the block's own precision back: `INIT`, then its synthetic `ADD`s (R121), in the order of log
entry 20. -/
def restoreCommands (p : Params) (regs : List Byte) : List Instr := .init :: syntheticAdds p 0 regs

end Sys2Proof.Machine
end

