-- ==== Sys2Proof/Safety.lean ====
section
/-! DEFINITION. The terms in which claims are made: the invariants of a reachable state (R11, R15, R17), the exactness of
`S` (R14), and running a sequence of port events (R167). -/

namespace Sys2Proof.Safety

open Machine

/-- The number of registers that hold 0 (R16, R17). -/
def zeroRegisters (s : State) : Nat := ((Finset.range s.params.NB).filter fun i => Memory.read s.mem i = 0).card

/-- The invariant of every reachable state. -/
structure Inv (s : State) : Prop where
  /-- The memory is in its canonical form. -/
  memWf : Memory.wf s.mem = true
  /-- Only indices `0..NB-1` hold anything (R30). -/
  memBounded : ∀ c ∈ s.mem, c.1 < s.params.NB
  /-- Registers hold `0` or a rank (R11). -/
  regsCapped : ∀ i, (Memory.read s.mem i).toNat ≤ s.params.rankCap
  /-- `Z` counts the zero registers (R17). -/
  zerosExact : s.zeros = zeroRegisters s
  /-- `S` is finite, and not negative zero (R15). -/
  sumFinite : Float64.isFinite s.sum = true
  sumNotNegZero : s.sum ≠ Float64.negZero

/-- `T = Σ 2^(-M[i])`, in units of `2^-1074` (R14). -/
def exactSum (s : State) : Nat := ∑ i ∈ Finset.range s.params.NB, 2 ^ (1074 - (Memory.read s.mem i).toNat)

/-- `P + R <= 53`, with `R` the largest register (R14). -/
def InExactRange (s : State) : Prop := ∀ i, s.params.P + (Memory.read s.mem i).toNat ≤ 53

/-- R14: within the exact range, `S` is the real sum. -/
def SumExact (s : State) : Prop := InExactRange s → Float64.scaled s.sum = exactSum s

/-- Run a finite sequence of port events to its end, from the state `s` (R167). -/
def serve (events : List PortEvent) (s : State) : Host.Outcome State Fault Refusal :=
  Sys2Proof.core.run events.length { s with pending := events }

/-- The events of a list of commands, as the host presents them. -/
def commandEvents (is : List Instr) : List PortEvent := is.map fun i => .command (encode i)

/-- The `ADD` of a hash. -/
def addOf (h : Hash) : Instr := .add (word0 h) (word1 h) (word2 h) (word3 h)

/-- Whether an event lowers registers: a reset, or a word that decodes to `INIT` (R12). -/
def clears : PortEvent → Bool
  | .reset => true
  | .command w => decode w == .instr .init

/-- The number of responses a list of events is owed: one per command word, legal or not, none per reset (R57, R160). -/
def owed (events : List PortEvent) : Nat := events.countP fun e => e != .reset

/-- The largest rank of the hashes of a list whose bucket is `i`; 0 if there is none (R93). -/
def maxRank (p : Params) (i : Nat) (hs : List Hash) : Nat :=
  hs.foldl (fun m h => if bucketOf p h = i then max m (rankOf p h) else m) 0

/-- `(M, S, Z)` of two states agree, and their parameters. -/
def sameBlock (s t : State) : Prop :=
  t.params = s.params ∧ t.mem = s.mem ∧ t.sum = s.sum ∧ t.zeros = s.zeros

/-- R54: the illegal command words. -/
def IllegalWord (c : CmdWord) : Prop :=
  0x06 ≤ opField c ∨
  ((opField c = 0x02 ∨ opField c = 0x04 ∨ opField c = 0x05) ∧ plField c ≠ 0) ∨
  (opField c = 0x03 ∧ (plField c).extractLsb' 32 96 ≠ 0)

/-- The read commands (R37). -/
def isRead : Instr → Bool
  | .addn => false
  | .add _ _ _ _ => false
  | .init => false
  | .rdreg _ => true
  | .rdsum => true
  | .rdzc => true

/-- Whether an event is no `ADD`, no `INIT` and no reset (R37). -/
def leavesBlock : PortEvent → Bool
  | .reset => false
  | .command w =>
    match decode w with
    | .illegal _ => true
    | .instr .addn => true
    | .instr (.add _ _ _ _) => false
    | .instr .init => false
    | .instr (.rdreg _) => true
    | .instr .rdsum => true
    | .instr .rdzc => true

/-- `r` is the exact value `exact` (in units of `2^-1074`) rounded to nearest, ties to even (R7): no finite binary64 number is
nearer, and where another one is as near, `r`'s significand is even. -/
def NearestEven (exact : Int) (r : Word64) : Prop :=
  ∀ x, Float64.isFinite x = true →
    |Float64.scaled r - exact| ≤ |Float64.scaled x - exact| ∧
    (Float64.scaled x ≠ Float64.scaled r → |Float64.scaled r - exact| = |Float64.scaled x - exact| →
      r.getLsbD 0 = false)

end Sys2Proof.Safety
end

