-- ==== Sys2Proof/Certificates/Slice0/Obligations.lean ====
section
/-! DEFINITION. The statements for the provers. Each is about every state and every instance (`P`, `RANK_CAP`) unless it
says otherwise; its docstring names the rule it formalises. -/

open Sys2Proof Sys2Proof.Machine Sys2Proof.Safety

/-! ### Encoding -/

/-- R51, R59, R60: decoding an encoded command gives it back, every operand bit included. -/
def Obligations.DecodeInvertsEncode : Prop := ∀ i : Instr, decode (encode i) = .instr i

/-- R59, R53 d: a word that decodes to a command is that command's encoding, but for `ADDN`, whose payload is ignored. -/
def Obligations.EncodeInvertsDecode : Prop :=
  ∀ (c : CmdWord) (i : Instr), decode c = .instr i → i ≠ .addn → encode i = c

/-- R54: the illegal words are exactly those of (a), (b), (c), and such a word changes nothing but the response it gets. -/
def Obligations.IllegalWordsAreRefused : Prop :=
  ∀ c : CmdWord, (IllegalWord c ↔ ∃ why, decode c = .illegal why) ∧
    ∀ (s : State) (rest : List PortEvent), s.pending = .command c :: rest → IllegalWord c →
      step s = .next { s with
        pending := rest
        responses := s.responses ++ [{ status := .illegal, data := 0 }] }

/-- R59's table: a word decodes to a command of a row exactly when it matches the row under its mask. -/
def Obligations.DecodeFollowsOpcodeTable : Prop :=
  ∀ c : CmdWord, (∀ i, decode c = .instr i → c &&& rowMask i = rowMatch i) ∧
    (∀ i, c &&& rowMask i = rowMatch i → ∃ j, decode c = .instr j ∧ rowMatch j = rowMatch i)

/-- 30_encoding section 5: the spec's worked encodings decode as it says. -/
def Obligations.WorkedEncodingsDecode : Prop :=
  decode 0x0000000000000000000000000000000000 = .instr .addn ∧
  decode 0x01A0000000000000000000000000000008 = .instr (.add 0xA0000000 0 0 8) ∧
  decode 0x0200000000000000000000000000000000 = .instr .init ∧
  decode 0x030000000000000000000000000000000A = .instr (.rdreg 10) ∧
  decode 0x0400000000000000000000000000000000 = .instr .rdsum ∧
  decode 0x0500000000000000000000000000000000 = .instr .rdzc ∧
  decode 0x0600000000000000000000000000000000 = .illegal (.reservedOpcode 6) ∧
  decode 0x0200000000000000000000000000000001 = .illegal (.payloadNotZero 2) ∧
  decode 0x0300000001000000000000000000000000 = .illegal .indexTooWide

/-- R56: the response word holds the status code in bits 65:64 and the data in bits 63:0; code `0b11` never occurs. -/
def Obligations.ResponseWordFields : Prop :=
  ∀ (d : Word64),
    (∀ st : Status, (Response.word { status := st, data := d }).extractLsb' 0 64 = d ∧
      (Response.word { status := st, data := d }).extractLsb' 64 2 ≠ 0b11) ∧
    (Response.word { status := .ok, data := d }).extractLsb' 64 2 = 0b00 ∧
    (Response.word { status := .illegal, data := d }).extractLsb' 64 2 = 0b01 ∧
    (Response.word { status := .range, data := d }).extractLsb' 64 2 = 0b10

/-- R9: elaboration gives an instance, with exactly the parameters asked for, for the legal ones and for no others. -/
def Obligations.OnlyLegalParametersMakeAnInstance : Prop :=
  ∀ P cap : Nat,
    (Params.elaborate P cap = none ↔ ¬((1 ≤ P ∧ P ≤ 32) ∧ (1 ≤ cap ∧ cap ≤ 97))) ∧
    ∀ p, Params.elaborate P cap = some p → p.P = P ∧ p.rankCap = cap

/-! ### What each command does -/

/-- R91: `ADDN`, whatever its payload, does nothing and answers `OK`, data 0; the all-zero hash that is present is no absent
hash: its word is an `ADD`, which from a zero register changes the block. -/
def Obligations.AddnDoesNothing : Prop :=
  (∀ pl : BitVec 128, decode (commandWord 0x00 pl) = .instr .addn) ∧
  decode (commandWord 0x01 0) = .instr (.add 0 0 0 0) ∧
  (∀ s : State, Memory.read s.mem 0 = 0 →
    ∃ t, exec (.add 0 0 0 0) s = .next t ∧ (Memory.read t.mem 0).toNat = min 97 s.params.rankCap) ∧
  ∀ s : State, exec .addn s = .next { s with responses := s.responses ++ [{ status := .ok, data := 0 }] }

/-- R90: `ADD` on every state and every hash completes. The bucket's register becomes the larger of its value and the
rank, every other register keeps its value, `S` gains the rounded difference, `Z` is decremented exactly when the register
was zero, the answer is `OK`, data 0, and nothing else changes. The clause for every `Z`, 0 and values above `2^(P+1) - 1`
included, is the model's: the wrap modulo `2^(P+1)` is DEDUCED (log entry 15); for `1 ≤ Z ≤ 2^P` it is R90's own. -/
def Obligations.AddUpdatesBucketAndAggregates : Prop :=
  ∀ (s : State) (w0 w1 w2 w3 : Word32),
    let b := (w0 >>> (32 - s.params.P)).toNat
    let rank := min (1 + ctz96 (w1 ++ w2 ++ w3)) s.params.rankCap
    let old := Memory.read s.mem b
    let new := max old.toNat rank
    ∃ t, exec (.add w0 w1 w2 w3) s = .next t ∧
      b < 2 ^ s.params.P ∧
      (Memory.read t.mem b).toNat = new ∧
      (∀ a, a ≠ b → Memory.read t.mem a = Memory.read s.mem a) ∧
      t.sum = Float64.fadd s.sum (Float64.fsub (Float64.pow2neg new) (Float64.pow2neg old.toNat)) ∧
      t.zeros = (if old = 0 then (s.zeros + (2 ^ (s.params.P + 1) - 1)) % 2 ^ (s.params.P + 1) else s.zeros) ∧
      (old = 0 → 1 ≤ s.zeros → s.zeros ≤ 2 ^ s.params.P → t.zeros = s.zeros - 1) ∧
      t.params = s.params ∧ t.pending = s.pending ∧
      t.responses = s.responses ++ [{ status := .ok, data := 0 }]

/-- R90 b: an `ADD` whose rank does not exceed the register leaves the block as it was, `S` bit for bit. -/
def Obligations.AddOfLowerRankChangesNothing : Prop :=
  ∀ (s : State) (w0 w1 w2 w3 : Word32),
    Memory.wf s.mem = true → Float64.isFinite s.sum = true → s.sum ≠ Float64.negZero →
    rankOf s.params (hashOf w0 w1 w2 w3) ≤
      (Memory.read s.mem (bucketOf s.params (hashOf w0 w1 w2 w3))).toNat →
    exec (.add w0 w1 w2 w3) s = .next { s with responses := s.responses ++ [{ status := .ok, data := 0 }] }

/-- R100: `INIT` gives, from every state, the reset state's registers, `S` and `Z`: 0, `2^P` as binary64, `2^P`. -/
def Obligations.InitGivesConstructionState : Prop :=
  ∀ s : State, ∃ t, exec .init s = .next t ∧
    (∀ i, Memory.read t.mem i = 0) ∧
    t.sum = BitVec.ofNat 64 ((1023 + s.params.P) * 2 ^ 52) ∧ Float64.scaled t.sum = 2 ^ s.params.P * 2 ^ 1074 ∧
    t.zeros = 2 ^ s.params.P ∧
    t = { State.resetOf s.params with
      pending := s.pending
      responses := s.responses ++ [{ status := .ok, data := 0 }] }

/-- R101: `RDREG` answers the register, zero-extended, or `RANGE` with data 0 for an index `>= NB`; it changes no state. -/
def Obligations.RdregReadsOrRefuses : Prop :=
  ∀ (s : State) (idx : Word32),
    exec (.rdreg idx) s = .next { s with
      responses := s.responses ++
        [if 2 ^ s.params.P ≤ idx.toNat then { status := .range, data := 0 }
         else { status := .ok, data := (Memory.read s.mem idx.toNat).setWidth 64 }] } ∧
    (s.params.P = 32 → idx.toNat < 2 ^ s.params.P)

/-- R102: `RDSUM` answers the 64 bits of `S` and changes no state. -/
def Obligations.RdsumAnswersSum : Prop :=
  ∀ s : State, exec .rdsum s = .next { s with responses := s.responses ++ [{ status := .ok, data := s.sum }] }

/-- R103: `RDZC` answers `Z`, zero-extended, and changes no state; every value `Z` can hold fits. -/
def Obligations.RdzcAnswersZeros : Prop :=
  ∀ s : State, ∃ d : Word64,
    exec .rdzc s = .next { s with responses := s.responses ++ [{ status := .ok, data := d }] } ∧
    (s.zeros ≤ 2 ^ s.params.P → d.toNat = s.zeros)

/-! ### The port -/

/-- R59, R39: a step on a word that decodes to a command is that command's meaning on the state with the word taken from
the port, and nothing else. The second clause is the model's choice (log entry 2, DESIGN CHOICE), no rule's: `withFetchWord`
stands for the host's load, and puts the word at the head of `pending`, where the next step takes it. -/
def Obligations.StepRunsDecodedCommand : Prop :=
  (∀ (s : State) (c : CmdWord) (rest : List PortEvent) (i : Instr),
    s.pending = .command c :: rest → decode c = .instr i → step s = exec i { s with pending := rest }) ∧
  ∀ (s : State) (nbits w : Nat) (i : Instr), decodeTableWord nbits w = some i → step (s.withFetchWord nbits w) = exec i s

/-- R57, R140: no step stops, in any state: a command word gets exactly one response, after all earlier ones; a reset gets
none; with nothing at the port the block waits (the model's choice, log entry 4). -/
def Obligations.EveryPortEventCompletes : Prop :=
  ∀ s : State, ∃ t, step s = .next t ∧
    match s.pending with
    | [] => t = s
    | .reset :: rest => t.pending = rest ∧ t.responses = s.responses
    | .command _ :: rest => t.pending = rest ∧ ∃ r, t.responses = s.responses ++ [r]

/-- R57, R167: every finite sequence of port events runs to its end, with one response per command word. -/
def Obligations.RunsAnswerEveryCommand : Prop :=
  ∀ (es : List PortEvent) (s : State), ∃ t rs, serve es s = .next t ∧ t.pending = [] ∧
    t.responses = s.responses ++ rs ∧ rs.length = owed es

/-- R39: events take effect one after another: a sequence in two parts is the first part, then the second. -/
def Obligations.EventsTakeEffectInOrder : Prop :=
  ∀ (es fs : List PortEvent) (s t : State), serve es s = .next t → serve (es ++ fs) s = serve fs t

/-- R141, R142, R143: a response is `ILLEGAL` exactly for a word that does not decode, `RANGE` exactly for a word that decodes
to `RDREG` with an index `>= NB`; a refused command leaves the block as it was and answers data 0. -/
def Obligations.StatusNamesItsCause : Prop :=
  ∀ (s : State) (c : CmdWord) (rest : List PortEvent), s.pending = .command c :: rest →
    ∃ t st d, step s = .next t ∧ t.responses = s.responses ++ [{ status := st, data := d }] ∧
      (st = .illegal ↔ ∃ why, decode c = .illegal why) ∧
      (st = .range ↔ ∃ idx : Word32, decode c = .instr (.rdreg idx) ∧ 2 ^ s.params.P ≤ idx.toNat) ∧
      (st ≠ .ok → sameBlock s t ∧ d = 0)

/-- R160: a reset event gives the reset state, whatever the state before, and produces no response. -/
def Obligations.ResetEventClears : Prop :=
  ∀ (s : State) (rest : List PortEvent), s.pending = .reset :: rest →
    step s = .next { State.resetOf s.params with pending := rest, responses := s.responses }

/-- R161: reset and `INIT` are the same transformer of the block; they differ in the response. -/
def Obligations.ResetAndInitAgree : Prop :=
  ∀ (s : State) (rest : List PortEvent), ∃ t u,
    step { s with pending := .reset :: rest } = .next t ∧
    step { s with pending := .command (encode .init) :: rest } = .next u ∧
    sameBlock t u ∧ t.responses = s.responses ∧ u.responses = s.responses ++ [{ status := .ok, data := 0 }]

/-- R37: a read changes no state, and answers the same again after any events among which is no `ADD`, `INIT` or reset. -/
def Obligations.ReadsHaveNoSideEffect : Prop :=
  ∀ (s : State) (i : Instr) (es : List PortEvent), isRead i = true → (∀ e ∈ es, leavesBlock e = true) →
    ∃ t u v r, exec i s = .next t ∧ sameBlock s t ∧ t.responses = s.responses ++ [r] ∧
      serve es t = .next u ∧ sameBlock s u ∧
      exec i u = .next v ∧ v.responses = u.responses ++ [r]

/-- R30, R38: the register array holds exactly the indices `0..NB-1`; any other access faults by name (the model's choice,
log entry 9), which `EveryPortEventCompletes` says no step does. -/
def Obligations.ArrayHoldsExactlyItsIndices : Prop :=
  ∀ (s : State) (i : Nat) (v : Byte),
    (i < 2 ^ s.params.P → s.readReg i = .ok (Memory.read s.mem i) ∧
      ∃ t, s.writeReg i v = .ok t ∧ (v ≠ 0 → Memory.read t.mem i = v) ∧
        ∀ j, j ≠ i → Memory.read t.mem j = Memory.read s.mem j) ∧
    (2 ^ s.params.P ≤ i → s.readReg i = .error (.noSuchRegister i) ∧ s.writeReg i v = .error (.noSuchRegister i))

/-! ### Invariants of every step -/

/-- R3: no step changes `P` or `RANK_CAP`. -/
def Obligations.ParametersNeverChange : Prop := ∀ s t : State, step s = .next t → t.params = s.params

/-- R12: no register decreases by any event but `INIT` and reset. -/
def Obligations.RegistersNeverDecrease : Prop :=
  ∀ (s t : State), step s = .next t → (∀ e rest, s.pending = e :: rest → clears e = false) →
    ∀ i, Memory.read s.mem i ≤ Memory.read t.mem i

/-- R11, R15, R17, R30: every step keeps the invariant: canonical memory within the array, registers within the cap, `Z` the
number of zero registers, `S` finite and not negative zero. -/
def Obligations.StepKeepsInvariant : Prop := ∀ s t : State, Inv s → step s = .next t → Inv t

/-- R14: every step keeps `S` equal to the real sum `Σ 2^(-M[i])` while `P + R <= 53`. -/
def Obligations.StepKeepsSumExact : Prop := ∀ s t : State, Inv s → SumExact s → step s = .next t → SumExact t

/-- R20, R164: the reset state of every instance meets both invariants. -/
def Obligations.ResetMeetsInvariants : Prop := ∀ p : Params, Inv (State.resetOf p) ∧ SumExact (State.resetOf p)

/-- R11, R14, R15, R17, R57: every run from reset, of every instance, over any sequence of events, ends in a state that meets
the invariants, having answered every command. -/
def Obligations.EveryRunIsSound : Prop :=
  ∀ (p : Params) (es : List PortEvent), ∃ t, serve es (State.resetOf p) = .next t ∧ t.params = p ∧ Inv t ∧ SumExact t ∧
    t.responses.length = owed es

/-! ### Properties of `ADD` over sequences -/

/-- R92: a second `ADD` of the same hash, after any events other than `INIT` and reset, changes nothing. -/
def Obligations.RepeatedAddIsIdempotent : Prop :=
  ∀ (s : State) (h : Hash) (es : List PortEvent), Inv s → (∀ e ∈ es, clears e = false) →
    ∃ t u, serve (.command (encode (addOf h)) :: es) s = .next t ∧
      serve [.command (encode (addOf h))] t = .next u ∧ sameBlock t u

/-- R93: after `INIT` or reset, a register holds the largest rank of the hashes of its bucket (0 if none), and `Z` counts the
buckets that received none. -/
def Obligations.RegistersHoldMaximumRanks : Prop :=
  ∀ (p : Params) (hs : List Hash), ∃ t, serve (commandEvents (hs.map addOf)) (State.resetOf p) = .next t ∧
    (∀ i, (Memory.read t.mem i).toNat = maxRank p i hs) ∧
    t.zeros = ((Finset.range p.NB).filter fun i => ∀ h ∈ hs, bucketOf p h ≠ i).card

/-- R93: the order of the `ADD`s changes neither `M` nor `Z`, and within the exact range not `S`. -/
def Obligations.AddOrderDoesNotMatter : Prop :=
  ∀ (p : Params) (hs gs : List Hash), hs.Perm gs →
    ∃ t u, serve (commandEvents (hs.map addOf)) (State.resetOf p) = .next t ∧
      serve (commandEvents (gs.map addOf)) (State.resetOf p) = .next u ∧
      t.mem = u.mem ∧ t.zeros = u.zeros ∧ (InExactRange t → t.sum = u.sum)

/-- R93, R14: outside the exact range two orders of the same `ADD`s can leave different bits in `S`, so the premise of
`AddOrderDoesNotMatter` cannot be dropped. -/
def Obligations.OrderCanChangeLastBitsOfSum : Prop :=
  ∃ (p : Params) (g h : Hash) (t u : State),
    serve (commandEvents [addOf g, addOf h]) (State.resetOf p) = .next t ∧
    serve (commandEvents [addOf h, addOf g]) (State.resetOf p) = .next u ∧ t.mem = u.mem ∧ t.sum ≠ u.sum

/-! ### Datapath -/

/-- R70: the bucket is `word[0]` shifted right by `32 - P`, which is the top `P` bits of the hash, `H[127 : 128-P]`, below `NB`;
so no lower bit influences it. -/
def Obligations.BucketIsTopBits : Prop :=
  ∀ (p : Params) (h : Hash), bucketOf p h = (word0 h).toNat / 2 ^ (32 - p.P) ∧
    bucketOf p h = h.toNat / 2 ^ (128 - p.P) ∧ bucketOf p h < 2 ^ p.P

/-- R72: `ctz96(T)` is the least index of a set bit, and 96 for the zero remainder. -/
def Obligations.ZeroCountIsLeastSetBit : Prop :=
  ctz96 0 = 96 ∧
  ∀ t : Remainder, t ≠ 0 → ctz96 t < 96 ∧ t.getLsbD (ctz96 t) = true ∧ ∀ i < ctz96 t, t.getLsbD i = false

/-- R74: the zero count is the leading-zero count of the bit-reversed remainder, `rev96` and `lzc96` being what the rule says
they are; and the word-wise formulation is equal to it. -/
def Obligations.ZeroCountIsReversedLeadingZeros : Prop :=
  (∀ (t : Remainder) (i : Nat), i < 96 → (rev96 t).getLsbD (95 - i) = t.getLsbD i) ∧
  lzc96 0 = 96 ∧
  (∀ x : Remainder, x ≠ 0 → ∃ i < 96, x.getLsbD i = true ∧ (∀ j, i < j → x.getLsbD j = false) ∧ lzc96 x = 95 - i) ∧
  (∀ t : Remainder, ctz96 t = lzc96 (rev96 t)) ∧
  ∀ h : Hash, ctz96 (remainder h) = ctzByWords h

/-- R73: the rank lies in `1..RANK_CAP`; below the cap it is one more than the position of the first set bit, and the bits of
the remainder above that bit do not matter. -/
def Obligations.RankOfFirstSetBit : Prop :=
  ∀ (p : Params) (h : Hash),
    1 ≤ rankOf p h ∧ rankOf p h ≤ p.rankCap ∧
    (remainder h = 0 → rankOf p h = min 97 p.rankCap) ∧
    ∀ i < 96, (remainder h).getLsbD i = true → (∀ j < i, (remainder h).getLsbD j = false) →
      rankOf p h = min (1 + i) p.rankCap

/-- R75: `max8` is the larger of any two unsigned bytes; from a state that meets the invariant the register `ADD` writes is the
larger of the old value and the rank, at most 97, bit 7 clear. -/
def Obligations.UpdatedRegisterFits : Prop :=
  (∀ a b : Byte, (max8 a b).toNat = max a.toNat b.toNat) ∧
  ∀ (s : State) (h : Hash), Inv s →
    let new := max8 (Memory.read s.mem (bucketOf s.params h)) (rankByte s.params h)
    new.toNat = max (Memory.read s.mem (bucketOf s.params h)).toNat (rankOf s.params h) ∧
      new.toNat ≤ 97 ∧ new.getLsbD 7 = false

/-- R76: `pow2neg(r)` is exactly `2^(-r)`, a normal number with sign 0, exponent field `1023 - r` and fraction 0. -/
def Obligations.PowerReciprocalIsExact : Prop :=
  ∀ r : Nat, r ≤ 97 →
    Float64.sign (Float64.pow2neg r) = false ∧ Float64.expField (Float64.pow2neg r) = 1023 - r ∧
    Float64.fraction (Float64.pow2neg r) = 0 ∧ Float64.scaled (Float64.pow2neg r) = 2 ^ (1074 - r)

/-- R77: the difference of the two reciprocals, case by case: `+0`; exact up to a gap of 53; from 54 on, `-2^(-old)`. -/
def Obligations.ReciprocalDifferenceCases : Prop :=
  ∀ old new : Nat, old ≤ new → new ≤ 97 →
    let d := Float64.fsub (Float64.pow2neg new) (Float64.pow2neg old)
    (new = old → d = 0x0000000000000000) ∧
    (1 ≤ new - old → new - old ≤ 53 → Float64.scaled d = -((2 : Int) ^ (1074 - old) - 2 ^ (1074 - new))) ∧
    (54 ≤ new - old → d = Float64.negate (Float64.pow2neg old))

/-- R7, R77, R78: the sum and the difference of finite numbers are the exact results rounded once to nearest, ties to even,
whenever they are finite. The sign of an exact zero (negative when both operands are negative) is the model's, PRESUMED from
IEEE 754 (log entry 7), as is the format's content. -/
def Obligations.AddAndSubtractRoundCorrectly : Prop :=
  ∀ a b : Word64, Float64.isFinite a = true → Float64.isFinite b = true →
    (Float64.isFinite (Float64.fadd a b) = true →
      NearestEven (Float64.scaled a + Float64.scaled b) (Float64.fadd a b)) ∧
    (Float64.scaled a + Float64.scaled b = 0 → Float64.fadd a b =
      if Float64.sign a = true ∧ Float64.sign b = true then Float64.negZero else Float64.posZero) ∧
    (Float64.isFinite (Float64.fsub a b) = true →
      NearestEven (Float64.scaled a - Float64.scaled b) (Float64.fsub a b)) ∧
    Float64.fsub a a = Float64.posZero

/-- R78: adding `+0` leaves every `S` the block can hold as it is, bit for bit. -/
def Obligations.AddingPlusZeroKeepsSum : Prop :=
  ∀ x : Word64, Float64.isFinite x = true → x ≠ Float64.negZero → Float64.fadd x 0x0000000000000000 = x

/-- R79, R15: the difference `ADD` adds is `+0` or a normal negative number of magnitude between `2^(-97)` and 1, and adding it
to any finite `S` that is not negative zero gives such an `S` again. -/
def Obligations.AccumulationStaysFinite : Prop :=
  ∀ old new : Nat, old ≤ new → new ≤ 97 →
    let d := Float64.fsub (Float64.pow2neg new) (Float64.pow2neg old)
    (d = 0x0000000000000000 ∨ (Float64.sign d = true ∧ 1 ≤ Float64.expField d ∧ Float64.expField d ≤ 1023 ∧
      2 ^ (1074 - 97) ≤ Float64.magnitude d ∧ Float64.magnitude d ≤ 2 ^ 1074)) ∧
    ∀ x : Word64, Float64.isFinite x = true → x ≠ Float64.negZero →
      Float64.isFinite (Float64.fadd x d) = true ∧ Float64.fadd x d ≠ Float64.negZero

/-! ### Host functions -/

/-- R113: `count` of the empty sketch of every instance is 0. -/
def Obligations.CountOfEmptySketchIsZero : Prop := ∀ p : Params, count p.NB (resetSum p) p.NB = 0

/-- R114 gives these values of `relativeError` as decimals only. That the results are, bit for bit, the doubles nearest to the
decimals is the model's: 1.04 is read as the nearest double (log entry 12, DESIGN CHOICE) and `sqrt` is correctly rounded (log
entry 10, PRESUMED). -/
def Obligations.RelativeErrorValues : Prop :=
  relativeError 16 = Float64.ofRatio 26 100 ∧ relativeError 1024 = Float64.ofRatio 325 10000 ∧
  relativeError 4096 = Float64.ofRatio 1625 100000 ∧ relativeError 16384 = Float64.ofRatio 8125 1000000 ∧
  relativeError 65536 = Float64.ofRatio 40625 10000000

/-- R115 to R118: `merge` of well-formed sketches is well formed at the smaller precision, with the rescanned aggregates. -/
def Obligations.MergeEndsAtCoarserPrecision : Prop :=
  ∀ recv other : Sketch, sketchWf recv = true → sketchWf other = true →
    (merge recv other).precision = min recv.precision other.precision ∧ sketchWf (merge recv other) = true ∧
    (merge recv other).zeros = countZeros (merge recv other).regs ∧
    (merge recv other).sum = rescanSum (merge recv other).regs

/-- R115: the merged sketch has the smaller precision of the two, and each of its registers is the maximum of all registers of
both that fold into it. -/
def Obligations.MergeTakesMaximaOfFoldedRegisters : Prop :=
  ∀ recv other : Sketch, sketchWf recv = true → sketchWf other = true →
    let p := min recv.precision other.precision
    (merge recv other).precision = p ∧
    ∀ j < 2 ^ p, ∀ v : Nat,
      (regAt (merge recv other).regs j).toNat ≤ v ↔
        (∀ i < 2 ^ recv.precision, i / 2 ^ (recv.precision - p) = j → (regAt recv.regs i).toNat ≤ v) ∧
        (∀ i < 2 ^ other.precision, i / 2 ^ (other.precision - p) = j → (regAt other.regs i).toNat ≤ v)

/-- R119: merging a sketch with a copy of itself changes no register. -/
def Obligations.MergeWithItselfKeepsRegisters : Prop :=
  ∀ k : Sketch, sketchWf k = true → (merge k k).regs = k.regs

/-- R120: the snapshot commands leave the block as it was, and their responses carry exactly the sketch it holds. -/
def Obligations.SnapshotReadsTheSketch : Prop :=
  ∀ s : State, s.zeros ≤ s.params.NB → ∃ t rs, serve (commandEvents (snapshotCommands s.params)) s = .next t ∧
    sameBlock s t ∧ t.responses = s.responses ++ rs ∧ (∀ r ∈ rs, r.status = .ok) ∧
    sketchOfData s.params (rs.map (·.data)) = s.sketch

/-- R104, R118: the rescan of the registers gives `Z` exactly, and `S` bit for bit within the exact range. -/
def Obligations.RescanRebuildsAggregates : Prop :=
  ∀ s : State, Inv s → SumExact s →
    countZeros s.sketch.regs = s.zeros ∧ (InExactRange s → rescanSum s.sketch.regs = s.sum)

/-- R121: `INIT` and the synthetic `ADD`s of a saved array put it back: the registers, the number of zeros, and within the
exact range the rescanned sum. That the `ADD`s are issued in ascending index is the model's choice (log entry 20); no clause
here depends on it. -/
def Obligations.RestorePutsSketchBack : Prop :=
  ∀ (s : State) (regs : List Byte), regs.length = s.params.NB → (∀ v ∈ regs, v.toNat ≤ s.params.rankCap) →
    ∃ t, serve (commandEvents (restoreCommands s.params regs)) s = .next t ∧
      t.sketch.regs = regs ∧ t.zeros = countZeros regs ∧ (InExactRange t → t.sum = rescanSum regs)

/-- R121: without the `INIT`, the synthetic `ADD`s of an array of precision `P + k` fold it into the block's registers as
`merge` would (R117). That they are issued in ascending index is the model's choice (log entry 20); the registers do not depend
on it. -/
def Obligations.SyntheticAddsFoldIntoBlock : Prop :=
  ∀ (s : State) (k : Nat) (regs : List Byte), regs.length = 2 ^ (s.params.P + k) →
    (∀ v ∈ regs, v.toNat ≤ s.params.rankCap) →
    ∃ t, serve (commandEvents (syntheticAdds s.params k regs)) s = .next t ∧
      t.sketch.regs = foldRegs k s.sketch.regs regs

/-! ### Assembler -/

/-- R60: the assembler's word of each command decodes to it, with the numbers as written. -/
def Obligations.AssembledWordsDecode : Prop :=
  ∀ p : Params,
    (∀ w0 w1 w2 w3 : Nat, w0 < 2 ^ 32 → w1 < 2 ^ 32 → w2 < 2 ^ 32 → w3 < 2 ^ 32 →
      ∃ c v0 v1 v2 v3, assembleSource p (.add w0 w1 w2 w3) = some [c] ∧ decode c = .instr (.add v0 v1 v2 v3) ∧
        v0.toNat = w0 ∧ v1.toNat = w1 ∧ v2.toNat = w2 ∧ v3.toNat = w3) ∧
    (∀ idx : Nat, idx < 2 ^ 32 →
      ∃ c v, assembleSource p (.rdreg idx) = some [c] ∧ decode c = .instr (.rdreg v) ∧ v.toNat = idx) ∧
    (∀ src i, (src, i) ∈ [(Source.addn, Instr.addn), (.init, .init), (.rdsum, .rdsum), (.rdzc, .rdzc)] →
      ∃ c, assembleSource p src = some [c] ∧ decode c = .instr i ∧ plField c = 0)

/-- R61: the pseudo-commands' expansions; `.cmd` is the only way to write an illegal word. -/
def Obligations.PseudoCommandsExpand : Prop :=
  ∀ p : Params,
    assembleSource p .nop = assembleSource p .addn ∧
    (∀ h < 2 ^ 128, assembleSource p (.addh h) =
      assembleSource p (.add (h / 2 ^ 96) (h / 2 ^ 64 % 2 ^ 32) (h / 2 ^ 32 % 2 ^ 32) (h % 2 ^ 32))) ∧
    assembleSource p .dump =
      (List.range p.NB).foldr
        (fun i rest => match assembleSource p (.rdreg i), rest with
          | some c, some cs => some (c ++ cs)
          | _, _ => none) (some []) ∧
    (∀ x : CmdWord, assembleSource p (.cmd x.toNat) = some [x]) ∧
    (∀ src cs, (∀ x, src ≠ .cmd x) → assembleSource p src = some cs → ∀ c ∈ cs, ∃ i, decode c = .instr i)
end

