-- ==== Sys2Proof/Laws/Decode.lean ====
section
/-! SUPPORT. The two fields of a command word that an opcode and a payload make (R50). -/

namespace Sys2Proof

theorem opField_commandWord (op : BitVec 8) (pl : BitVec 128) : opField (commandWord op pl) = op := by
  apply BitVec.eq_of_getLsbD_eq
  intro i hi
  simp only [opField, commandWord, BitVec.getLsbD_extractLsb', hi, decide_true, Bool.true_and, BitVec.getLsbD_append,
    show ¬128 + i < 128 by omega, if_false, Nat.add_sub_cancel_left]

theorem plField_commandWord (op : BitVec 8) (pl : BitVec 128) : plField (commandWord op pl) = pl := by
  apply BitVec.eq_of_getLsbD_eq
  intro i hi
  simp only [plField, commandWord, BitVec.getLsbD_extractLsb', hi, decide_true, Bool.true_and, BitVec.getLsbD_append,
    Nat.zero_add, if_true]

/-- A command word is its two fields. -/
theorem commandWord_fields (c : CmdWord) : commandWord (opField c) (plField c) = c := by
  apply BitVec.eq_of_getLsbD_eq
  intro i hi
  simp only [opField, plField, commandWord, BitVec.getLsbD_append, BitVec.getLsbD_extractLsb', Nat.zero_add]
  by_cases h : i < 128
  · simp only [h, decide_true, Bool.true_and, if_true]
  · simp only [h, if_false, show i - 128 < 8 by omega, decide_true, Bool.true_and, show 128 + (i - 128) = i by omega]

end Sys2Proof
end

