-- ==== Sys2Proof/Laws/Float64.lean ====
section
/-! SUPPORT. binary64: the value of a packed word, that rounding is exact on representable numbers, and what that gives for
`fadd` and `fsub`. -/

namespace Sys2Proof.Machine.Float64

/-- The magnitude that exponent and fraction fields, as one number, stand for. -/
def fieldsValue (f : Nat) : Nat :=
  if f / 2 ^ 52 = 0 then f % 2 ^ 52 else (2 ^ 52 + f % 2 ^ 52) * 2 ^ (f / 2 ^ 52 - 1)

theorem pack_toNat (neg : Bool) {f : Nat} (h : f < 2 ^ 63) :
    (pack neg f).toNat = (if neg then 2 ^ 63 else 0) + f := by
  simp only [pack, BitVec.toNat_ofNat]
  cases neg <;> (simp; omega)

theorem expField_eq (x : Word64) : expField x = x.toNat / 2 ^ 52 % 2 ^ 11 := by
  simp only [expField, BitVec.extractLsb'_toNat, Nat.shiftRight_eq_div_pow]

theorem fraction_eq (x : Word64) : fraction x = x.toNat % 2 ^ 52 := by
  simp only [fraction, BitVec.extractLsb'_toNat, Nat.shiftRight_zero]

theorem sign_eq (x : Word64) : sign x = decide (2 ^ 63 ≤ x.toNat) := by
  have := x.isLt
  simp only [sign, BitVec.getLsbD, Nat.testBit_eq_decide_div_mod_eq]
  congr 1
  apply propext
  constructor <;> intro h <;> omega

theorem expField_pack (neg : Bool) {f : Nat} (h : f < 2 ^ 63) : expField (pack neg f) = f / 2 ^ 52 := by
  rw [expField_eq, pack_toNat neg h]
  split <;> omega

theorem fraction_pack (neg : Bool) {f : Nat} (h : f < 2 ^ 63) : fraction (pack neg f) = f % 2 ^ 52 := by
  rw [fraction_eq, pack_toNat neg h]
  split <;> omega

theorem sign_pack (neg : Bool) {f : Nat} (h : f < 2 ^ 63) : sign (pack neg f) = neg := by
  rw [sign_eq, pack_toNat neg h]
  cases neg
  · simpa using h
  · simp

theorem magnitude_pack (neg : Bool) {f : Nat} (h : f < 2 ^ 63) : magnitude (pack neg f) = fieldsValue f := by
  simp only [magnitude, expField_pack neg h, fraction_pack neg h, fieldsValue]

/-- A word is its sign packed with its other 63 bits. -/
theorem pack_self (x : Word64) : pack (sign x) (x.toNat % 2 ^ 63) = x := by
  have := x.isLt
  apply BitVec.eq_of_toNat_eq
  rw [pack_toNat _ (Nat.mod_lt _ (by positivity)), sign_eq]
  by_cases h : 2 ^ 63 ≤ x.toNat <;> simp only [h, decide_true, decide_false, if_true, Bool.false_eq_true, if_false] <;> omega

/-- Division without a remainder rounds to itself. -/
theorem divNearestEven_exact {n d : Nat} (h : d ∣ n) (hd : 0 < d) : divNearestEven n d = n / d := by
  have : n % d = 0 := Nat.mod_eq_zero_of_dvd h
  simp only [divNearestEven, this, Nat.mul_zero, hd, if_true]

/-- `n` has a 53-bit significand. -/
def Representable (n : Nat) : Prop := ∃ m k, m < 2 ^ 53 ∧ n = m * 2 ^ k

/-- The excess bits of a representable number are zeros. -/
theorem excessBits_dvd {n : Nat} (h : Representable n) : 2 ^ excessBits n ∣ n := by
  obtain ⟨m, k, hm, rfl⟩ := h
  simp only [excessBits]
  split
  · simp
  · next hn =>
    have hn0 : m * 2 ^ k ≠ 0 := by omega
    have hlog : Nat.log2 (m * 2 ^ k) < 53 + k := by
      rw [Nat.log2_lt hn0, pow_add]
      exact (Nat.mul_lt_mul_right (by positivity)).2 hm
    exact (Nat.pow_dvd_pow 2 (by omega)).trans (Nat.dvd_mul_left _ _)

/-- The significand that the excess bits leave. -/
theorem excessBits_quotient {n : Nat} (h : excessBits n ≠ 0) :
    2 ^ 52 ≤ n / 2 ^ excessBits n ∧ n / 2 ^ excessBits n < 2 ^ 53 := by
  simp only [excessBits] at h ⊢
  split at h
  · exact absurd rfl h
  · next hn =>
    rw [if_neg hn]
    have hn0 : n ≠ 0 := by omega
    have hlog : 53 ≤ Nat.log2 n := (Nat.le_log2 hn0).2 (by omega)
    constructor
    · rw [Nat.le_div_iff_mul_le (by positivity), ← pow_add, show 52 + (Nat.log2 n - 52) = Nat.log2 n by omega]
      exact Nat.log2_self_le hn0
    · rw [Nat.div_lt_iff_lt_mul (by positivity), ← pow_add, show 53 + (Nat.log2 n - 52) = Nat.log2 n + 1 by omega]
      exact Nat.lt_log2_self

theorem roundMagnitude_lt (n d : Nat) : roundMagnitude n d < 2 ^ 63 := by
  simp only [roundMagnitude]
  exact lt_of_le_of_lt (min_le_right _ _) (by norm_num [infBits])

/-- A representable number within the format's range rounds to itself. -/
theorem roundMagnitude_exact {n : Nat} (h : Representable n) (hn : n < 2 ^ 2098) :
    fieldsValue (roundMagnitude n 1) = n := by
  have hd := excessBits_dvd h
  simp only [roundMagnitude, Nat.div_one, one_mul, divNearestEven_exact hd (by positivity)]
  by_cases hs : excessBits n = 0
  · have hlt : n < 2 ^ 53 := by
      by_contra hge
      simp only [excessBits, hge, if_false] at hs
      have hn0 : n ≠ 0 := by omega
      have : 53 ≤ Nat.log2 n := (Nat.le_log2 hn0).2 (by omega)
      omega
    rw [hs, pow_zero, Nat.div_one, zero_mul, zero_add, min_eq_left (by norm_num [infBits]; omega)]
    simp only [fieldsValue]
    split
    · omega
    · have hq : n / 2 ^ 52 = 1 := by omega
      rw [hq]
      omega
  · obtain ⟨hlo, hhi⟩ := excessBits_quotient hs
    have hbound : excessBits n ≤ 2045 := by
      simp only [excessBits] at hs ⊢
      split
      · omega
      · have : Nat.log2 n < 2098 := (Nat.log2_lt (by clear hn; omega)).2 hn
        clear hn
        omega
    have heq : n / 2 ^ excessBits n * 2 ^ excessBits n = n := Nat.div_mul_cancel hd
    generalize hq : n / 2 ^ excessBits n = q at *
    generalize excessBits n = s at *
    rw [min_eq_left (by simp only [infBits]; omega)]
    have h1 : (s * 2 ^ 52 + q) / 2 ^ 52 = s + 1 := by omega
    have h2 : (s * 2 ^ 52 + q) % 2 ^ 52 = q - 2 ^ 52 := by omega
    simp only [fieldsValue, h1, h2, Nat.add_sub_cancel, show s + 1 ≠ 0 by omega, if_false]
    rw [show 2 ^ 52 + (q - 2 ^ 52) = q by omega, heq]

/-- A finite magnitude is within the format's range. -/
theorem magnitude_lt {x : Word64} (h : isFinite x = true) : magnitude x < 2 ^ 2098 := by
  have hf : fraction x < 2 ^ 52 := by rw [fraction_eq]; exact Nat.mod_lt _ (by positivity)
  have he : expField x < 2 ^ 11 := by rw [expField_eq]; exact Nat.mod_lt _ (by positivity)
  simp only [isFinite, bne_iff_ne] at h
  simp only [magnitude]
  split
  · exact hf.trans_le (Nat.pow_le_pow_right (by norm_num) (by omega))
  · calc (2 ^ 52 + fraction x) * 2 ^ (expField x - 1)
        < 2 ^ 53 * 2 ^ (expField x - 1) := (Nat.mul_lt_mul_right (by positivity)).2 (by omega)
      _ = 2 ^ (53 + (expField x - 1)) := (pow_add 2 53 _).symm
      _ ≤ 2 ^ 2098 := Nat.pow_le_pow_right (by norm_num) (by omega)

theorem scaled_pack (neg : Bool) {f : Nat} (h : f < 2 ^ 63) :
    scaled (pack neg f) = if neg then -(fieldsValue f : Int) else fieldsValue f := by
  simp only [scaled, sign_pack neg h, magnitude_pack neg h]

/-- A representable integer within range rounds to a word of exactly that value. -/
theorem scaled_roundScaled {x : Int} (z : Bool) (h : Representable x.natAbs) (hx : x.natAbs < 2 ^ 2098) :
    scaled (roundScaled x z) = x := by
  simp only [roundScaled]
  split
  · next h0 => subst h0; rw [scaled_pack _ (by norm_num)]; cases z <;> rfl
  · rw [scaled_pack _ (roundMagnitude_lt _ _), roundMagnitude_exact h hx]
    clear hx
    by_cases hneg : x < 0 <;> simp only [hneg, decide_true, decide_false, if_true, Bool.false_eq_true, if_false] <;> omega

theorem isFinite_not_special {x : Word64} (h : isFinite x = true) : isNaN x = false ∧ isInf x = false := by
  simp only [isFinite, bne_iff_ne] at h
  simp [isNaN, isInf, h]

/-- Between finite numbers `fadd` rounds the exact sum once (R78). -/
theorem fadd_finite {a b : Word64} (ha : isFinite a = true) (hb : isFinite b = true) :
    fadd a b = roundScaled (scaled a + scaled b) (sign a && sign b) := by
  obtain ⟨ha1, ha2⟩ := isFinite_not_special ha
  obtain ⟨hb1, hb2⟩ := isFinite_not_special hb
  simp [fadd, ha1, ha2, hb1, hb2]

/-- A representable sum is exact. -/
theorem fadd_exact {a b : Word64} (ha : isFinite a = true) (hb : isFinite b = true)
    (h : Representable (scaled a + scaled b).natAbs) (hr : (scaled a + scaled b).natAbs < 2 ^ 2098) :
    scaled (fadd a b) = scaled a + scaled b := by
  rw [fadd_finite ha hb]
  exact scaled_roundScaled _ h hr

theorem negZero_getLsbD (k : Nat) : negZero.getLsbD k = decide (63 = k) := by
  rw [show negZero = BitVec.twoPow 64 63 by decide, BitVec.getLsbD_twoPow]
  simp

theorem expField_negate (x : Word64) : expField (negate x) = expField x := by
  simp only [expField, negate]
  congr 1
  ext i hi
  simp only [BitVec.getElem_extractLsb', BitVec.getLsbD_xor, negZero_getLsbD, show 63 ≠ 52 + i by omega, decide_false,
    Bool.xor_false]

theorem fraction_negate (x : Word64) : fraction (negate x) = fraction x := by
  simp only [fraction, negate]
  congr 1
  ext i hi
  simp only [BitVec.getElem_extractLsb', BitVec.getLsbD_xor, negZero_getLsbD, show 63 ≠ 0 + i by omega, decide_false,
    Bool.xor_false]

theorem sign_negate (x : Word64) : sign (negate x) = !sign x := by
  simp only [sign, negate, BitVec.getLsbD_xor, negZero_getLsbD, decide_true, Bool.xor_true]

theorem magnitude_negate (x : Word64) : magnitude (negate x) = magnitude x := by
  simp only [magnitude, expField_negate, fraction_negate]

theorem isFinite_negate (x : Word64) : isFinite (negate x) = isFinite x := by
  simp only [isFinite, expField_negate]

/-- Inverting the sign bit negates the value. -/
theorem scaled_negate (x : Word64) : scaled (negate x) = -scaled x := by
  simp only [scaled, sign_negate, magnitude_negate]
  cases sign x <;> simp

end Sys2Proof.Machine.Float64
end

