-- ==== Sys2Proof/Laws/Memory.lean ====
section
/-! SUPPORT. The register array: a read after a write, that a write keeps the canonical form and the bound on its indices,
and that two canonical arrays with equal registers are equal data. -/

namespace Sys2Proof.Machine

/-- A read of another index does not see a write. -/
theorem Memory.read_write_other {a b : Nat} (hab : b ≠ a) (v : Byte) (m : List Host.Cell) :
    Memory.read (Memory.write m a v) b = Memory.read m b := by
  induction m with
  | nil => by_cases hv : v = unlisted <;> simp [Memory.write, Memory.read, hv, hab.symm]
  | cons c rest ih =>
    obtain ⟨c, u⟩ := c
    simp only [Memory.write]
    split
    · simp [Memory.read, ih]
    · split
      · next h => subst h; by_cases hv : v = unlisted <;> simp [Memory.read, hv, hab.symm]
      · by_cases hv : v = unlisted <;> simp [Memory.read, hv, hab.symm]

/-- Below the least index a canonical memory may hold, every register reads as unlisted. -/
theorem Memory.read_below {least a : Nat} {m : List Host.Cell} (h : Memory.wfFrom least m = true) (ha : a < least) :
    Memory.read m a = unlisted := by
  induction m generalizing least with
  | nil => rfl
  | cons c rest ih =>
    obtain ⟨c, u⟩ := c
    simp only [Memory.wfFrom, Bool.and_eq_true, decide_eq_true_eq] at h
    have hc : c ≠ a := by omega
    simp only [Memory.read, hc, if_false]
    exact ih h.2.2 (by omega)

/-- A read of the index written answers the value written, for any memory when the value is not the unlisted one. -/
theorem Memory.read_write_same {v : Byte} (hv : v ≠ unlisted) (m : List Host.Cell) (a : Nat) :
    Memory.read (Memory.write m a v) a = v := by
  induction m with
  | nil => simp [Memory.write, Memory.read, hv]
  | cons c rest ih =>
    obtain ⟨c, u⟩ := c
    simp only [Memory.write]
    split
    · next h => simp [Memory.read, show c ≠ a by omega, ih]
    · split <;> simp [Memory.read]

/-- A read of the index written answers the value written, for a canonical memory and any value. -/
theorem Memory.read_write_same_wf {least : Nat} {m : List Host.Cell} (h : Memory.wfFrom least m = true) (a : Nat)
    (v : Byte) : Memory.read (Memory.write m a v) a = v := by
  by_cases hv : v = unlisted
  case neg => exact Memory.read_write_same hv m a
  subst hv
  induction m generalizing least with
  | nil => rfl
  | cons c rest ih =>
    obtain ⟨c, u⟩ := c
    simp only [Memory.wfFrom, Bool.and_eq_true, decide_eq_true_eq] at h
    simp only [Memory.write]
    split
    · next hc => simp [Memory.read, show c ≠ a by omega, ih h.2.2]
    · split
      · next hc => exact Memory.read_below h.2.2 (by omega)
      · next hc hne => simpa [Memory.read, hne] using Memory.read_below h.2.2 (by omega : a < c + 1)

/-- A write keeps the canonical form. -/
theorem Memory.write_wfFrom {least : Nat} {m : List Host.Cell} (h : Memory.wfFrom least m = true) {a : Nat}
    (ha : least ≤ a) (v : Byte) : Memory.wfFrom least (Memory.write m a v) = true := by
  induction m generalizing least with
  | nil => by_cases hv : v = unlisted <;> simp [Memory.write, Memory.wfFrom, hv, ha]
  | cons c rest ih =>
    obtain ⟨c, u⟩ := c
    simp only [Memory.wfFrom, Bool.and_eq_true, decide_eq_true_eq, bne_iff_ne] at h
    obtain ⟨hl, hu, hr⟩ := h
    have weaken : ∀ {k : Nat}, k ≤ c + 1 → Memory.wfFrom k rest = true := by
      intro k hk
      cases rest with
      | nil => rfl
      | cons d tail =>
        simp only [Memory.wfFrom, Bool.and_eq_true, decide_eq_true_eq] at hr ⊢
        exact ⟨by omega, hr.2⟩
    simp only [Memory.write]
    split
    · next hc => simp [Memory.wfFrom, hl, hu, ih hr (by omega)]
    · split
      · next hc =>
        subst hc
        split
        · exact weaken (by omega)
        · next hv => simp [Memory.wfFrom, hl, hv, hr]
      · next h1 h2 =>
        split
        · simp [Memory.wfFrom, hl, hu, hr]
        · next hv => simp [Memory.wfFrom, ha, hv, hu, hr, show a + 1 ≤ c by omega]

/-- A write keeps the canonical form of a memory. -/
theorem Memory.write_wf {m : List Host.Cell} (h : Memory.wf m = true) (a : Nat) (v : Byte) :
    Memory.wf (Memory.write m a v) = true := Memory.write_wfFrom h (Nat.zero_le a) v

/-- The reset state's memory is canonical. -/
theorem State.resetOf_mem_wf (p : Params) : Memory.wf (State.resetOf p).mem = true := rfl

/-- A write below `n` keeps every listed index below `n`. -/
theorem Memory.write_bounded {n a : Nat} {m : List Host.Cell} (h : ∀ c ∈ m, c.1 < n) (ha : a < n) (v : Byte) :
    ∀ c ∈ Memory.write m a v, c.1 < n := by
  induction m with
  | nil =>
    by_cases hv : v = unlisted
    · simp [Memory.write, hv]
    · simpa [Memory.write, hv] using ha
  | cons c rest ih =>
    obtain ⟨c, u⟩ := c
    have hc : c < n := h (c, u) (by simp)
    have hr : ∀ d ∈ rest, d.1 < n := fun d hd => h d (by simp [hd])
    simp only [Memory.write]
    intro d hd
    split at hd
    · rcases List.mem_cons.1 hd with rfl | hd
      · exact hc
      · exact ih hr d hd
    · split at hd <;> split at hd <;> try simp only [List.mem_cons] at hd
      · exact hr d hd
      · rcases hd with rfl | hd
        · exact ha
        · exact hr d hd
      · rcases hd with rfl | hd
        · exact hc
        · exact hr d hd
      · rcases hd with rfl | rfl | hd
        · exact ha
        · exact hc
        · exact hr d hd

/-- An index that is not listed reads as unlisted. -/
theorem Memory.read_of_bounded {n a : Nat} {m : List Host.Cell} (h : ∀ c ∈ m, c.1 < n) (ha : n ≤ a) :
    Memory.read m a = unlisted := by
  induction m with
  | nil => rfl
  | cons c rest ih =>
    obtain ⟨c, u⟩ := c
    have hc : c < n := h (c, u) (by simp)
    simp only [Memory.read, show c ≠ a by omega, if_false]
    exact ih fun d hd => h d (by simp [hd])

/-- Canonical memories with equal registers are equal data. -/
theorem Memory.eq_of_reads_eq {k₁ k₂ : Nat} {m₁ m₂ : List Host.Cell} (h₁ : Memory.wfFrom k₁ m₁ = true)
    (h₂ : Memory.wfFrom k₂ m₂ = true) (h : ∀ a, Memory.read m₁ a = Memory.read m₂ a) : m₁ = m₂ := by
  induction m₁ generalizing m₂ k₁ k₂ with
  | nil =>
    cases m₂ with
    | nil => rfl
    | cons c rest =>
      obtain ⟨c, u⟩ := c
      simp only [Memory.wfFrom, Bool.and_eq_true, bne_iff_ne] at h₂
      exact absurd (by simpa [Memory.read] using (h c).symm) h₂.2.1
  | cons c rest ih =>
    obtain ⟨c, u⟩ := c
    simp only [Memory.wfFrom, Bool.and_eq_true, decide_eq_true_eq, bne_iff_ne] at h₁
    cases m₂ with
    | nil => exact absurd (by simpa [Memory.read] using h c) h₁.2.1
    | cons d tail =>
      obtain ⟨d, w⟩ := d
      simp only [Memory.wfFrom, Bool.and_eq_true, decide_eq_true_eq, bne_iff_ne] at h₂
      have hcd : c = d := by
        rcases Nat.lt_trichotomy c d with hlt | heq | hgt
        · have := h c
          simp only [Memory.read, show d ≠ c by omega, if_false] at this
          exact absurd (this.trans (Memory.read_below h₂.2.2 (by omega))) h₁.2.1
        · exact heq
        · have := h d
          simp only [Memory.read, show c ≠ d by omega, if_false] at this
          exact absurd (this.symm.trans (Memory.read_below h₁.2.2 (by omega))) h₂.2.1
      subst hcd
      have huw : u = w := by simpa [Memory.read] using h c
      subst huw
      have : rest = tail := by
        refine ih h₁.2.2 h₂.2.2 fun a => ?_
        by_cases hac : a ≤ c
        · rw [Memory.read_below h₁.2.2 (by omega), Memory.read_below h₂.2.2 (by omega)]
        · simpa [Memory.read, show c ≠ a by omega] using h a
      rw [this]

end Sys2Proof.Machine
end

