-- ==== Sys2Proof/Laws/Operands.lean ====
section
/-! SUPPORT. A hash and its four words (R32), and its remainder (R71). -/

namespace Sys2Proof.Machine

theorem hashOf_getLsbD (w0 w1 w2 w3 : Word32) (i : Nat) :
    (hashOf w0 w1 w2 w3).getLsbD i =
      if i < 32 then w3.getLsbD i else if i < 64 then w2.getLsbD (i - 32)
      else if i < 96 then w1.getLsbD (i - 64) else w0.getLsbD (i - 96) := by
  simp only [hashOf, BitVec.getLsbD_append, Nat.sub_sub]
  by_cases h1 : i < 32
  · simp only [h1, if_true]
  · by_cases h2 : i < 64
    · simp only [h1, h2, if_true, if_false, show i - 32 < 32 by omega]
    · by_cases h3 : i < 96
      · simp only [h1, h2, h3, if_true, if_false, show ¬i - 32 < 32 by omega, show i - (32 + 32) < 32 by omega]
      · simp only [h1, h2, h3, if_false, show ¬i - 32 < 32 by omega, show ¬i - (32 + 32) < 32 by omega]

theorem word0_hashOf (w0 w1 w2 w3 : Word32) : word0 (hashOf w0 w1 w2 w3) = w0 := by
  apply BitVec.eq_of_getLsbD_eq
  intro i hi
  simp only [word0, BitVec.getLsbD_extractLsb', hi, decide_true, Bool.true_and, hashOf_getLsbD,
    show ¬96 + i < 32 by omega, show ¬96 + i < 64 by omega, show ¬96 + i < 96 by omega, if_false, Nat.add_sub_cancel_left]

theorem word1_hashOf (w0 w1 w2 w3 : Word32) : word1 (hashOf w0 w1 w2 w3) = w1 := by
  apply BitVec.eq_of_getLsbD_eq
  intro i hi
  simp only [word1, BitVec.getLsbD_extractLsb', hi, decide_true, Bool.true_and, hashOf_getLsbD,
    show ¬64 + i < 32 by omega, show ¬64 + i < 64 by omega, show 64 + i < 96 by omega, if_false, if_true,
    Nat.add_sub_cancel_left]

theorem word2_hashOf (w0 w1 w2 w3 : Word32) : word2 (hashOf w0 w1 w2 w3) = w2 := by
  apply BitVec.eq_of_getLsbD_eq
  intro i hi
  simp only [word2, BitVec.getLsbD_extractLsb', hi, decide_true, Bool.true_and, hashOf_getLsbD,
    show ¬32 + i < 32 by omega, show 32 + i < 64 by omega, if_false, if_true, Nat.add_sub_cancel_left]

theorem word3_hashOf (w0 w1 w2 w3 : Word32) : word3 (hashOf w0 w1 w2 w3) = w3 := by
  apply BitVec.eq_of_getLsbD_eq
  intro i hi
  simp only [word3, BitVec.getLsbD_extractLsb', hi, decide_true, Bool.true_and, hashOf_getLsbD, Nat.zero_add, if_true]

/-- A hash is its four words. -/
theorem hashOf_words (h : Hash) : hashOf (word0 h) (word1 h) (word2 h) (word3 h) = h := by
  apply BitVec.eq_of_getLsbD_eq
  intro i hi
  simp only [hashOf_getLsbD, word0, word1, word2, word3, BitVec.getLsbD_extractLsb', Nat.zero_add]
  by_cases h1 : i < 32
  · simp only [h1, if_true, decide_true, Bool.true_and]
  · by_cases h2 : i < 64
    · simp only [h1, h2, if_true, if_false, show i - 32 < 32 by omega, decide_true, Bool.true_and,
        show 32 + (i - 32) = i by omega]
    · by_cases h3 : i < 96
      · simp only [h1, h2, h3, if_true, if_false, show i - 64 < 32 by omega, decide_true, Bool.true_and,
          show 64 + (i - 64) = i by omega]
      · simp only [h1, h2, h3, if_false, show i - 96 < 32 by omega, decide_true, Bool.true_and,
          show 96 + (i - 96) = i by omega]

/-- The remainder is words 1 to 3. -/
theorem remainder_hashOf (w0 w1 w2 w3 : Word32) : remainder (hashOf w0 w1 w2 w3) = w1 ++ w2 ++ w3 := by
  apply BitVec.eq_of_getLsbD_eq
  intro i hi
  simp only [remainder, BitVec.getLsbD_extractLsb', hi, decide_true, Bool.true_and, hashOf_getLsbD, Nat.zero_add,
    BitVec.getLsbD_append, if_true]
  by_cases h1 : i < 32
  · simp only [h1, if_true]
  · by_cases h2 : i < 64
    · simp only [h1, h2, if_true, if_false, show i - 32 < 32 by omega]
    · simp only [h1, h2, if_false, show ¬i - 32 < 32 by omega, Nat.sub_sub]

end Sys2Proof.Machine
end

