-- ==== Sys2Proof/Laws/State.lean ====
section
/-! SUPPORT. One lemma per field per update of the state, each true by `rfl`, so that no later proof unfolds a record. -/

namespace Sys2Proof.Machine

section
variable (s : State) (v : Word64) (old new : Byte) (st : Status) (d : Word64) (w : CmdWord) (rest : List PortEvent)

@[simp] theorem State.setSum_params : (s.setSum v).params = s.params := rfl
@[simp] theorem State.setSum_mem : (s.setSum v).mem = s.mem := rfl
@[simp] theorem State.setSum_sum : (s.setSum v).sum = v := rfl
@[simp] theorem State.setSum_zeros : (s.setSum v).zeros = s.zeros := rfl
@[simp] theorem State.setSum_pending : (s.setSum v).pending = s.pending := rfl
@[simp] theorem State.setSum_responses : (s.setSum v).responses = s.responses := rfl

@[simp] theorem State.countLeavingZero_params : (s.countLeavingZero old new).params = s.params := rfl
@[simp] theorem State.countLeavingZero_mem : (s.countLeavingZero old new).mem = s.mem := rfl
@[simp] theorem State.countLeavingZero_sum : (s.countLeavingZero old new).sum = s.sum := rfl
@[simp] theorem State.countLeavingZero_zeros :
    (s.countLeavingZero old new).zeros = if new ≠ 0 ∧ old = 0 then decrement s.params s.zeros else s.zeros := rfl
@[simp] theorem State.countLeavingZero_pending : (s.countLeavingZero old new).pending = s.pending := rfl
@[simp] theorem State.countLeavingZero_responses : (s.countLeavingZero old new).responses = s.responses := rfl

@[simp] theorem State.clear_params : s.clear.params = s.params := rfl
@[simp] theorem State.clear_mem : s.clear.mem = [] := rfl
@[simp] theorem State.clear_sum : s.clear.sum = resetSum s.params := rfl
@[simp] theorem State.clear_zeros : s.clear.zeros = s.params.NB := rfl
@[simp] theorem State.clear_pending : s.clear.pending = s.pending := rfl
@[simp] theorem State.clear_responses : s.clear.responses = s.responses := rfl

@[simp] theorem State.respond_params : (s.respond st d).params = s.params := rfl
@[simp] theorem State.respond_mem : (s.respond st d).mem = s.mem := rfl
@[simp] theorem State.respond_sum : (s.respond st d).sum = s.sum := rfl
@[simp] theorem State.respond_zeros : (s.respond st d).zeros = s.zeros := rfl
@[simp] theorem State.respond_pending : (s.respond st d).pending = s.pending := rfl
@[simp] theorem State.respond_responses :
    (s.respond st d).responses = s.responses ++ [{ status := st, data := d }] := rfl

@[simp] theorem State.refuseIllegal_params : s.refuseIllegal.params = s.params := rfl
@[simp] theorem State.refuseIllegal_mem : s.refuseIllegal.mem = s.mem := rfl
@[simp] theorem State.refuseIllegal_sum : s.refuseIllegal.sum = s.sum := rfl
@[simp] theorem State.refuseIllegal_zeros : s.refuseIllegal.zeros = s.zeros := rfl
@[simp] theorem State.refuseIllegal_pending : s.refuseIllegal.pending = s.pending := rfl
@[simp] theorem State.refuseIllegal_responses :
    s.refuseIllegal.responses = s.responses ++ [{ status := .illegal, data := 0 }] := rfl

@[simp] theorem State.take_params : (s.take rest).params = s.params := rfl
@[simp] theorem State.take_mem : (s.take rest).mem = s.mem := rfl
@[simp] theorem State.take_sum : (s.take rest).sum = s.sum := rfl
@[simp] theorem State.take_zeros : (s.take rest).zeros = s.zeros := rfl
@[simp] theorem State.take_pending : (s.take rest).pending = rest := rfl
@[simp] theorem State.take_responses : (s.take rest).responses = s.responses := rfl

@[simp] theorem State.present_params : (s.present w).params = s.params := rfl
@[simp] theorem State.present_mem : (s.present w).mem = s.mem := rfl
@[simp] theorem State.present_sum : (s.present w).sum = s.sum := rfl
@[simp] theorem State.present_zeros : (s.present w).zeros = s.zeros := rfl
@[simp] theorem State.present_pending : (s.present w).pending = .command w :: s.pending := rfl
@[simp] theorem State.present_responses : (s.present w).responses = s.responses := rfl

end

end Sys2Proof.Machine
end

