-- ==== Sys2Proof/Laws/Ops.lean ====
section
/-! SUPPORT. What each shared operation does, once: the operand functions' ranges, the register array's read and write, the
update of `ADD`, and the one inversion of `step`. -/

namespace Sys2Proof.Machine

/-- An `ADD` never addresses outside the array (R35). -/
theorem bucketOf_lt (p : Params) (h : Hash) : bucketOf p h < p.NB := by
  have h0 := (word0 h).isLt
  have hP := p.P_legal
  simp only [bucketOf, BitVec.toNat_ushiftRight, Nat.shiftRight_eq_div_pow, Params.NB]
  rw [Nat.div_lt_iff_lt_mul (by positivity), ← pow_add]
  simpa [show p.P + (32 - p.P) = 32 by omega] using h0

theorem scanZeros_le (t : Remainder) (n : Nat) : scanZeros t n ≤ n := by
  induction n with
  | zero => simp [scanZeros]
  | succ n ih => simp only [scanZeros]; split <;> omega

/-- The rank is at least 1 and at most `RANK_CAP` (R73). -/
theorem rankOf_range (p : Params) (h : Hash) : 1 ≤ rankOf p h ∧ rankOf p h ≤ p.rankCap := by
  have := p.rankCap_legal
  simp only [rankOf]
  omega

/-- The rank as a byte is the rank (R75). -/
theorem rankByte_toNat (p : Params) (h : Hash) : (rankByte p h).toNat = rankOf p h := by
  have := p.rankCap_legal
  have := rankOf_range p h
  simp only [rankByte, BitVec.toNat_ofNat]
  omega

/-- `max8` is the maximum of the two as numbers (R75). -/
theorem max8_toNat (a b : Byte) : (max8 a b).toNat = max a.toNat b.toNat := by
  simp only [max8, BitVec.lt_def]
  split <;> omega

/-- The register an `ADD` writes is never zero after it (R90 g). -/
theorem max8_rankByte_ne_zero (p : Params) (h : Hash) (old : Byte) : max8 old (rankByte p h) ≠ 0 := by
  intro hz
  have h1 := max8_toNat old (rankByte p h)
  rw [hz, rankByte_toNat] at h1
  have := rankOf_range p h
  simp at h1
  omega

/-- Reading a register of the array answers its value. -/
theorem State.readReg_ok {s : State} {i : Nat} (h : i < s.params.NB) : s.readReg i = .ok (Memory.read s.mem i) := by
  simp only [State.readReg, h, if_true]

/-- Writing a register of the array stores the value. -/
theorem State.writeReg_ok {s : State} {i : Nat} (h : i < s.params.NB) (v : Byte) :
    s.writeReg i v = .ok { s with mem := Memory.write s.mem i v } := by
  simp only [State.writeReg, h, if_true]

/-- What the register of a hash's bucket becomes (R90). -/
def newValue (s : State) (h : Hash) : Byte := max8 (Memory.read s.mem (bucketOf s.params h)) (rankByte s.params h)

/-- Everything the update of `ADD` does: it always completes, with these fields (R90; `new != 0` holds always, R90 a). -/
theorem State.addHash_eq (s : State) (h : Hash) :
    s.addHash h = .ok { s with
      mem := Memory.write s.mem (bucketOf s.params h) (newValue s h)
      sum := accumulate s.sum (Memory.read s.mem (bucketOf s.params h)) (newValue s h)
      zeros := if Memory.read s.mem (bucketOf s.params h) = 0 then decrement s.params s.zeros else s.zeros } := by
  have hb := bucketOf_lt s.params h
  have hn : ¬max8 (Memory.read s.mem (bucketOf s.params h)) (rankByte s.params h) = 0#8 :=
    max8_rankByte_ne_zero s.params h _
  simp only [State.addHash, State.readReg_ok hb]
  rw [State.writeReg_ok (by simpa using hb)]
  simp only [State.countLeavingZero, State.setSum, newValue, ne_eq, BitVec.ofNat_eq_ofNat, hn, not_false_eq_true,
    true_and]

/-- What one port event does to the block, the event itself already taken. -/
theorem step_cases {s t : State} (h : step s = .next t) :
    (s.pending = [] ∧ t = s) ∨
    (∃ rest, s.pending = .reset :: rest ∧ t = (s.take rest).clear) ∨
    (∃ w rest why, s.pending = .command w :: rest ∧ decode w = .illegal why ∧ t = (s.take rest).refuseIllegal) ∨
    (∃ w rest i, s.pending = .command w :: rest ∧ decode w = .instr i ∧ exec i (s.take rest) = .next t) := by
  unfold step at h
  split at h
  · next hp => injection h with h; exact .inl ⟨hp, h.symm⟩
  · next rest hp => injection h with h; exact .inr (.inl ⟨rest, hp, h.symm⟩)
  · next w rest hp =>
    split at h
    · next why hd => injection h with h; exact .inr (.inr (.inl ⟨w, rest, why, hp, hd, h.symm⟩))
    · next i hd => exact .inr (.inr (.inr ⟨w, rest, i, hp, hd, h⟩))

/-- What one command can do: it answers a next state, and each of the six in one way. -/
theorem exec_cases {i : Instr} {s t : State} (h : exec i s = .next t) :
    (i = .addn ∧ t = s.respond .ok 0) ∨
    (∃ w0 w1 w2 w3 u, i = .add w0 w1 w2 w3 ∧ s.addHash (hashOf w0 w1 w2 w3) = .ok u ∧ t = u.respond .ok 0) ∨
    (i = .init ∧ t = s.clear.respond .ok 0) ∨
    (∃ idx, i = .rdreg idx ∧ ((s.params.NB ≤ idx.toNat ∧ t = s.respond .range 0) ∨
      (idx.toNat < s.params.NB ∧ t = s.respond .ok ((Memory.read s.mem idx.toNat).setWidth 64)))) ∨
    (i = .rdsum ∧ t = s.respond .ok s.sum) ∨
    (i = .rdzc ∧ t = s.respond .ok (BitVec.ofNat 64 s.zeros)) := by
  cases i with
  | addn => left; simpa [exec, execAddn, eq_comm] using h
  | add w0 w1 w2 w3 =>
    right; left
    simp only [exec, execAdd, State.addHash_eq] at h
    injection h with h
    exact ⟨w0, w1, w2, w3, _, rfl, State.addHash_eq _ _, h.symm⟩
  | init => right; right; left; simpa [exec, execInit, eq_comm] using h
  | rdreg idx =>
    right; right; right; left
    refine ⟨idx, rfl, ?_⟩
    simp only [exec, execRdreg] at h
    split at h
    · next hi => injection h with h; exact .inl ⟨hi, h.symm⟩
    · next hi =>
      rw [State.readReg_ok (by omega)] at h
      injection h with h
      exact .inr ⟨by omega, h.symm⟩
  | rdsum => right; right; right; right; left; simpa [exec, execRdsum, eq_comm] using h
  | rdzc => right; right; right; right; right; simpa [exec, execRdzc, eq_comm] using h

end Sys2Proof.Machine
end

