-- ==== Sys2Proof/Laws/PerInstr.lean ====
section
/-! SUPPORT. The statement made of every command as syntax: the word it encodes to carries its own opcode, that of its row
in the opcode table. -/

namespace Sys2Proof.Laws.OwnOpcode

/-- The opcode field of the encoded word is that of the command's row (R52, R59). -/
def Statement (i : Instr) : Prop := opField (encode i) = opField (rowMatch i)

theorem addn : Statement .addn := (opField_commandWord _ _).trans (by decide)

theorem add (w0 w1 w2 w3 : Word32) : Statement (.add w0 w1 w2 w3) :=
  (opField_commandWord _ _).trans (show (1 : BitVec 8) = opField 0x0100000000000000000000000000000000 by decide)

theorem init : Statement .init := (opField_commandWord _ _).trans (by decide)

theorem rdreg (idx : Word32) : Statement (.rdreg idx) :=
  (opField_commandWord _ _).trans (show (3 : BitVec 8) = opField 0x0300000000000000000000000000000000 by decide)

theorem rdsum : Statement .rdsum := (opField_commandWord _ _).trans (by decide)

theorem rdzc : Statement .rdzc := (opField_commandWord _ _).trans (by decide)

end Sys2Proof.Laws.OwnOpcode
end

