-- ==== Sys2Proof/Laws/Serve.lean ====
section
/-! SUPPORT. Running a sequence of port events: what waits at the port does not influence the event being performed, so a
sequence is served one event after another. -/

namespace Sys2Proof.Safety

open Machine

/-- What waits at the port does not influence a command's meaning, and the meaning does not change it. -/
theorem exec_pending {i : Instr} {s t : State} (h : exec i s = .next t) (q : List PortEvent) :
    exec i { s with pending := q } = .next { t with pending := q } := by
  rcases exec_cases h with ⟨rfl, rfl⟩ | ⟨w0, w1, w2, w3, u, rfl, hu, rfl⟩ | ⟨rfl, rfl⟩ | ⟨idx, rfl, hr⟩ | ⟨rfl, rfl⟩ |
    ⟨rfl, rfl⟩
  · rfl
  · rw [State.addHash_eq] at hu
    injection hu with hu
    subst hu
    simp only [exec, execAdd, State.addHash_eq]
    rfl
  · rfl
  · rcases hr with ⟨hi, rfl⟩ | ⟨hi, rfl⟩
    · simp only [exec, execRdreg, hi, if_true]
      rfl
    · simp only [exec, execRdreg, show ¬s.params.NB ≤ idx.toNat by omega, if_false]
      rw [State.readReg_ok (by exact hi)]
      rfl
  · rfl
  · rfl

/-- What waits behind an event does not influence it. -/
theorem step_rest {s t : State} {e : PortEvent} (h : step { s with pending := [e] } = .next t) (es : List PortEvent) :
    step { s with pending := e :: es } = .next { t with pending := es } := by
  rcases step_cases h with ⟨hp, -⟩ | ⟨rest, hp, rfl⟩ | ⟨w, rest, why, hp, hd, rfl⟩ | ⟨w, rest, i, hp, hd, hx⟩
  · cases hp
  · cases hp; rfl
  · cases hp
    simp only [step, hd]
    rfl
  · cases hp
    simp only [step, hd]
    exact exec_pending hx es

@[simp] theorem serve_nil (s : State) : serve [] s = .next { s with pending := [] } := rfl

/-- Serving a sequence: its first event, then the rest. -/
theorem serve_cons {s t : State} {e : PortEvent} (h : step { s with pending := [e] } = .next t) (es : List PortEvent) :
    serve (e :: es) s = serve es t := by
  simp only [serve, List.length_cons, Host.Core.run]
  have : Sys2Proof.core.step { s with pending := e :: es } = .next { t with pending := es } := step_rest h es
  rw [this]

end Sys2Proof.Safety
end

