-- ==== Sys2Proof/Tests/Slice0.lean ====
section
/-! SUPPORT. Tests. Expected results are the spec's own (its worked encodings and the vectors of 95_test_vectors, named in each
comment): the checks, decoding, and one step of each command. Datapath.lean and
HostFunctions.lean test the functions, Witnesses.lean the hypotheses. -/

namespace Sys2Proof.Tests

open Machine Safety

/-! ### Helpers -/

def params (P : Nat) (h : 1 ≤ P ∧ P ≤ 32) : Params :=
  { P := P, rankCap := 97, P_legal := h, rankCap_legal := ⟨by decide, by decide⟩ }

/-- Parameters with another cap (R6 lets a model take one). -/
def capped (cap : Nat) (h : 1 ≤ cap ∧ cap ≤ 97) : Params :=
  { P := 4, rankCap := cap, P_legal := ⟨by decide, by decide⟩, rankCap_legal := h }

/-- The state after vector A1: `P = 4`, `M[10] = 4`, `S = 15.0625`, `Z = 15`. -/
def afterA1 : State := { State.reset with mem := [(10, 4)], sum := 0x402E200000000000, zeros := 15 }

/-- The next state of an outcome. -/
def next? : Host.Outcome State Fault Refusal → Option State
  | .next t => some t
  | .fault _ => none
  | .refused _ => none

/-- What a test looks at: the registers, `S`, `Z` and the responses. -/
def look (o : Host.Outcome State Fault Refusal) : Option (List Host.Cell × Word64 × Nat × List RspWord) :=
  (next? o).map fun t => (t.mem, t.sum, t.zeros, t.responses.map Response.word)

def bucketAt (P : Nat) (h : 1 ≤ P ∧ P ≤ 32) (w0 : Word32) : Nat := bucketOf (params P h) (hashOf w0 0 0 0)

def sketch (p : Nat) (regs : List Byte) : Sketch :=
  { precision := p, regs := regs, sum := rescanSum regs, zeros := countZeros regs, alpha := alpha (2 ^ p) }

/-! ### Smoke test of the checks: an ill-formed term for each -/

theorem test_params_P_zero_refused : Params.elaborate 0 97 = none := by decide
theorem test_params_P_too_large_refused : Params.elaborate 33 97 = none := by decide
theorem test_params_cap_zero_refused : Params.elaborate 4 0 = none := by decide
theorem test_params_cap_too_large_refused : Params.elaborate 4 98 = none := by decide
theorem test_params_bounds_accepted :
    (Params.elaborate 1 1).isSome = true ∧ (Params.elaborate 32 97).isSome = true := by decide
theorem test_source_add_refused :
    (Source.add (2 ^ 32) 0 0 0).wellFormed = false ∧ (Source.add 0 (2 ^ 32) 0 0).wellFormed = false ∧
      (Source.add 0 0 (2 ^ 32) 0).wellFormed = false ∧ (Source.add 0 0 0 (2 ^ 32)).wellFormed = false := by decide
theorem test_source_rdreg_refused : (Source.rdreg (2 ^ 32)).wellFormed = false := by decide
theorem test_source_addh_refused : (Source.addh (2 ^ 128)).wellFormed = false := by decide
theorem test_source_cmd_refused : (Source.cmd (2 ^ 136)).wellFormed = false := by decide
theorem test_ill_formed_source_not_assembled : assembleSource resetParams (.rdreg (2 ^ 32)) = none := by decide

/-! ### Decoding: words written out from the spec's encodings -/

/-- A6: the payload of `ADDN` is ignored. -/
theorem test_decode_addn : decode 0x00FFFFFFFFFFFFFFFFFFFFFFFFFFFFFFFF = .instr .addn := by decide
/-- Program 1, row 4. -/
theorem test_decode_add :
    decode 0x01A1234567DEADBEEF0000000100000000 = .instr (.add 0xA1234567 0xDEADBEEF 1 0) := by decide
theorem test_decode_init : decode 0x0200000000000000000000000000000000 = .instr .init := by decide
theorem test_decode_rdreg : decode 0x0300000000000000000000000000000400 = .instr (.rdreg 1024) := by decide
theorem test_decode_rdsum : decode 0x0400000000000000000000000000000000 = .instr .rdsum := by decide
theorem test_decode_rdzc : decode 0x0500000000000000000000000000000000 = .instr .rdzc := by decide
/-- I9 to I14. -/
theorem test_decode_illegal :
    decode 0x0200000000000000000000000000000001 = .illegal (.payloadNotZero 2) ∧
    decode 0x0400000000000000000000000000000001 = .illegal (.payloadNotZero 4) ∧
    decode 0x0580000000000000000000000000000000 = .illegal (.payloadNotZero 5) ∧
    decode 0x0300000001000000000000000000000010 = .illegal .indexTooWide ∧
    decode 0x0600000000000000000000000000000000 = .illegal (.reservedOpcode 6) ∧
    decode 0xFF00000000000000000000000000000000 = .illegal (.reservedOpcode 255) := by decide
theorem test_encode_add :
    encode (.add 0xA1234567 0xDEADBEEF 1 0) = 0x01A1234567DEADBEEF0000000100000000 := by decide
theorem test_encode_rdreg : encode (.rdreg 10) = 0x030000000000000000000000000000000A := by decide
theorem test_table_word : decodeTableWord 136 0x030000000000000000000000000000000A = some (.rdreg 10) := by decide

/-! ### One step of each command -/

/-- A5: `ADDN` changes nothing. -/
theorem test_addn : look (exec .addn State.reset) = some ([], 0x4030000000000000, 16, [0]) := by decide +kernel
/-- A9: a larger rank in a bucket already used. -/
theorem test_add_larger_rank :
    look (exec (.add 0xA1234567 0xDEADBEEF 1 0) afterA1) = some ([(10, 33)], 0x402E000000010000, 15, [0]) := by
  decide +kernel
/-- A2: the all-zero hash is an `ADD`; the term `2^-97` is lost. -/
theorem test_add_zero_hash :
    look (exec (.add 0 0 0 0) State.reset) = some ([(0, 97)], 0x402E000000000000, 15, [0]) := by decide +kernel
/-- I8: `INIT` clears. -/
theorem test_init : look (exec .init afterA1) = some ([], 0x4030000000000000, 16, [0]) := by decide +kernel
/-- I7. -/
theorem test_rdreg : look (exec (.rdreg 10) afterA1) = some ([(10, 4)], 0x402E200000000000, 15, [4]) := by decide
/-- I5: the first index outside the array. -/
theorem test_rdreg_range :
    look (exec (.rdreg 16) afterA1) = some ([(10, 4)], 0x402E200000000000, 15, [0x20000000000000000]) := by decide
/-- R102's example. -/
theorem test_rdsum :
    look (exec .rdsum afterA1) = some ([(10, 4)], 0x402E200000000000, 15, [0x0402E200000000000]) := by decide
/-- R103's example. -/
theorem test_rdzc : look (exec .rdzc afterA1) = some ([(10, 4)], 0x402E200000000000, 15, [15]) := by decide
/-- A1, as the first step after reset. -/
theorem test_step_add :
    look (step (State.reset.withFetchWord 136 0x01A0000000000000000000000000000008)) =
      some ([(10, 4)], 0x402E200000000000, 15, [0]) := by decide +kernel
/-- I12: `ILLEGAL`, not `RANGE`. -/
theorem test_step_illegal :
    look (step (afterA1.withFetchWord 136 0x0300000001000000000000000000000010)) =
      some ([(10, 4)], 0x402E200000000000, 15, [0x10000000000000000]) := by decide
/-- R160: a reset answers nothing. -/
theorem test_step_reset :
    look (step { afterA1 with pending := [.reset] }) = some ([], 0x4030000000000000, 16, []) := by decide
/-- R20: the reset values of `P = 10` and `P = 32`. -/
theorem test_reset_values :
    resetSum (params 10 (by decide)) = 0x4090000000000000 ∧ (params 10 (by decide)).NB = 1024 ∧
    resetSum (params 32 (by decide)) = 0x41F0000000000000 ∧ (params 32 (by decide)).NB = 4294967296 := by decide

end Sys2Proof.Tests
end

