-- ==== Sys2Proof/Tests/Datapath.lean ====
section
/-! SUPPORT. Tests of the datapath functions, on the spec's vectors. -/

namespace Sys2Proof.Tests

open Machine Safety

/-- B1 to B14. -/
theorem test_bucket :
    bucketAt 4 (by decide) 0xA0000000 = 10 ∧ bucketAt 4 (by decide) 0xAFFFFFFF = 10 ∧
    bucketAt 4 (by decide) 0 = 0 ∧ bucketAt 4 (by decide) 0xFFFFFFFF = 15 ∧
    bucketAt 10 (by decide) 0xDEADBEEF = 890 ∧ bucketAt 14 (by decide) 0xDEADBEEF = 14251 ∧
    bucketAt 32 (by decide) 0xDEADBEEF = 3735928559 ∧ bucketAt 1 (by decide) 0x7FFFFFFF = 0 ∧
    bucketAt 1 (by decide) 0x80000000 = 1 ∧ bucketAt 10 (by decide) 0x003FFFFF = 0 := by decide
/-- K2, K5 to K14. -/
theorem test_rank :
    rankOf resetParams (hashOf 0 0 0 0xFFFFFFFF) = 1 ∧ rankOf resetParams (hashOf 0 0 0 0xFFFFFFF8) = 4 ∧
    rankOf resetParams (hashOf 0 0 0 0x80000000) = 32 ∧ rankOf resetParams (hashOf 0 0 1 0) = 33 ∧
    rankOf resetParams (hashOf 0 0xFFFFFFFF 0xFFFFFFFF 0) = 33 ∧ rankOf resetParams (hashOf 0 0 0x80000000 0) = 64 ∧
    rankOf resetParams (hashOf 0 1 0 0) = 65 ∧ rankOf resetParams (hashOf 0 0x10000 0 0) = 81 ∧
    rankOf resetParams (hashOf 0 0x80000000 0 0) = 96 ∧ rankOf resetParams (hashOf 0xFFFFFFFF 0 0 0) = 97 ∧
    rankOf resetParams (hashOf 0 0xDEADBEEF 0 0x100000) = 21 := by decide +kernel
/-- K9, K10, K13 with `RANK_CAP = 64`. -/
theorem test_rank_capped :
    rankOf (capped 64 (by decide)) (hashOf 0 0 0x80000000 0) = 64 ∧
    rankOf (capped 64 (by decide)) (hashOf 0 1 0 0) = 64 ∧ rankOf (capped 64 (by decide)) (hashOf 0 0 0 0) = 64 := by
  decide +kernel
/-- The leading-zero form of K4, K12, K13. -/
theorem test_lzc :
    rev96 8 = 0x100000000000000000000000 ∧ lzc96 (rev96 8) = 3 ∧ lzc96 1 = 95 ∧ lzc96 0 = 96 := by decide +kernel
/-- F3 to F11. -/
theorem test_fsub :
    Float64.fsub (Float64.pow2neg 33) (Float64.pow2neg 4) = 0xBFAFFFFFFF000000 ∧
    Float64.fsub (Float64.pow2neg 53) (Float64.pow2neg 0) = 0xBFEFFFFFFFFFFFFF ∧
    Float64.fsub (Float64.pow2neg 54) (Float64.pow2neg 0) = 0xBFF0000000000000 ∧
    Float64.fsub (Float64.pow2neg 54) (Float64.pow2neg 1) = 0xBFDFFFFFFFFFFFFF ∧
    Float64.fsub (Float64.pow2neg 97) (Float64.pow2neg 3) = 0xBFC0000000000000 ∧
    Float64.fsub (Float64.pow2neg 97) (Float64.pow2neg 96) = 0xB9E0000000000000 ∧
    Float64.fsub (Float64.pow2neg 5) (Float64.pow2neg 5) = 0 := by decide +kernel
/-- The `fadd` vectors under F12, a tie to even among them. -/
theorem test_fadd :
    Float64.fadd 0x402E200000000000 0xBFAFFFFFFF000000 = 0x402E000000010000 ∧
    Float64.fadd 0x4030000000000000 0xBFEFFFFFFFFFFFF0 = 0x402E000000000001 ∧
    Float64.fadd 0x4030000000000000 0xBFEFFFFFFFFFFFF8 = 0x402E000000000000 := by decide +kernel

end Sys2Proof.Tests
end

