-- ==== Sys2Proof/Tests/HostFunctions.lean ====
section
/-! SUPPORT. Tests of the host functions and the assembler, on the spec's vectors. -/

namespace Sys2Proof.Tests

open Machine Safety

/-- H2 and H3, as the doubles nearest to the values given. -/
theorem test_alpha :
    alpha 16 = Float64.ofRatio 17298698987060132 100000000000000 ∧
    alpha 1024 = Float64.ofRatio 755541746198293 1000000000 := by decide +kernel
/-- H9 and H10. -/
theorem test_count :
    count 16 (Float64.ofNat 8) 0 = 22 ∧ count 4 (Float64.ofRatio 46875 100000) 0 = 19 := by decide +kernel
/-- M1. -/
theorem test_merge_fold :
    merge (sketch 2 [1, 0, 3, 2]) (sketch 3 [0, 2, 4, 0, 1, 1, 0, 5]) = sketch 2 [2, 4, 3, 5] ∧
    rescanSum [2, 4, 3, 5] = Float64.ofRatio 46875 100000 := by decide +kernel
/-- M2. -/
theorem test_merge_reduce :
    merge (sketch 3 [0, 2, 4, 0, 1, 1, 0, 5]) (sketch 2 [1, 0, 3, 2]) = sketch 2 [2, 4, 3, 5] := by decide +kernel
/-- 95 section 2.6, synthetic hashes. -/
theorem test_synthetic_add :
    syntheticAdd resetParams 10 4 = .add 0xA0000000 0 0 8 ∧ syntheticAdd resetParams 3 97 = .add 0x30000000 0 0 0 ∧
    syntheticAdd resetParams 0 96 = .add 0 0x80000000 0 0 ∧
    syntheticAdd (params 10 (by decide)) 513 33 = .add 0x80400000 0 1 0 := by decide +kernel
/-- 30_encoding section 5, as text. -/
theorem test_assemble_text :
    assembleLines resetParams
      [['R', 'D', 'R', 'E', 'G', ' ', '1', '0', ' ', ';', 'x'], [], ['N', 'O', 'P'],
       ['.', 'c', 'm', 'd', ' ', '0', 'x', '6', '0'], ['A', 'D', 'D', ' ', '0', 'x', 'A', ',', ' ', '0', ',', '1', ',', '8']] =
      some [0x030000000000000000000000000000000A, 0, 0x60, 0x010000000A000000000000000100000008] := by decide +kernel

end Sys2Proof.Tests
end

