-- ==== Sys2Proof/Tests/Witnesses.lean ====
section
/-! SUPPORT. Witnesses: for each statement with hypotheses, concrete values that meet them together, at the boundaries of its
clauses. -/

namespace Sys2Proof.Tests

open Machine Safety

theorem afterA1_inv : Inv afterA1 where
  memWf := by decide
  memBounded := by decide
  regsCapped := by
    intro i
    simp only [afterA1, Memory.read]
    split <;> decide
  zerosExact := by decide +kernel
  sumFinite := by decide
  sumNotNegZero := by decide

theorem afterA1_exact : InExactRange afterA1 ∧ SumExact afterA1 := by
  refine ⟨?_, fun _ => by decide +kernel⟩
  intro i
  simp only [afterA1, Memory.read]
  split <;> decide

theorem witness_EncodeInvertsDecode :
    decode 0x03000000000000000000000000FFFFFFFF = .instr (.rdreg 0xFFFFFFFF) ∧ Instr.rdreg 0xFFFFFFFF ≠ .addn := by decide

theorem witness_IllegalWordsAreRefused :
    IllegalWord 0x0600000000000000000000000000000000 ∧ IllegalWord 0xFFFFFFFFFFFFFFFFFFFFFFFFFFFFFFFFFF ∧
    IllegalWord 0x0280000000000000000000000000000000 ∧ IllegalWord 0x0400000000000000000000000000000001 ∧
    IllegalWord 0x0500000000000000000000000000000001 ∧ IllegalWord 0x0300000000000000000000000100000000 ∧
    ¬IllegalWord 0x03000000000000000000000000FFFFFFFF ∧
    (afterA1.present 0x0600000000000000000000000000000000).pending =
      .command 0x0600000000000000000000000000000000 :: [] := by
  unfold IllegalWord
  decide

theorem witness_DecodeFollowsOpcodeTable :
    decode 0x0500000000000000000000000000000000 = .instr .rdzc ∧
    (0x0500000000000000000000000000000000 : CmdWord) &&& rowMask .rdzc = rowMatch .rdzc := by decide

theorem witness_OnlyLegalParametersMakeAnInstance : Params.elaborate 4 97 = some resetParams := by decide

theorem witness_AddnDoesNothing : Memory.read State.reset.mem 0 = 0 ∧ Memory.read afterA1.mem 0 = 0 := by decide

theorem witness_AddUpdatesBucketAndAggregates :
    Memory.read afterA1.mem 0 = 0 ∧ 1 ≤ afterA1.zeros ∧ afterA1.zeros ≤ 2 ^ afterA1.params.P ∧
    Memory.read afterA1.mem 10 ≠ 0 ∧ (0 : Nat) ≠ 10 := by decide

theorem witness_AddOfLowerRankChangesNothing :
    Memory.wf afterA1.mem = true ∧ Float64.isFinite afterA1.sum = true ∧ afterA1.sum ≠ Float64.negZero ∧
    rankOf afterA1.params (hashOf 0xA0000000 0 0 8) ≤
      (Memory.read afterA1.mem (bucketOf afterA1.params (hashOf 0xA0000000 0 0 8))).toNat := by decide +kernel

theorem witness_RdregReadsOrRefuses :
    2 ^ afterA1.params.P ≤ (16 : Word32).toNat ∧ ¬2 ^ afterA1.params.P ≤ (15 : Word32).toNat ∧
    (State.resetOf (params 32 (by decide))).params.P = 32 := by decide

theorem witness_RdzcAnswersZeros :
    (State.resetOf (params 32 (by decide))).zeros ≤ 2 ^ (State.resetOf (params 32 (by decide))).params.P := by decide

theorem witness_StepRunsDecodedCommand :
    (afterA1.present 0x0400000000000000000000000000000000).pending =
      .command 0x0400000000000000000000000000000000 :: [] ∧
    decode 0x0400000000000000000000000000000000 = .instr .rdsum ∧
    decodeTableWord 136 0x0400000000000000000000000000000000 = some .rdsum := by decide

theorem witness_EventsTakeEffectInOrder :
    serve [.command 0, .reset] afterA1 =
      .next { State.reset with responses := [{ status := .ok, data := 0 }] } := rfl

theorem witness_StatusNamesItsCause :
    decode 0x0600000000000000000000000000000000 = .illegal (.reservedOpcode 6) ∧
    decode 0x0300000000000000000000000000000010 = .instr (.rdreg 16) ∧ 2 ^ State.reset.params.P ≤ (16 : Word32).toNat ∧
    (afterA1.present 0x0300000000000000000000000000000010).pending =
      .command 0x0300000000000000000000000000000010 :: [] := by decide

theorem witness_ResetEventClears : { afterA1 with pending := [.reset] }.pending = .reset :: [] := rfl

theorem witness_ReadsHaveNoSideEffect :
    isRead (.rdreg 10) = true ∧ isRead .rdsum = true ∧ isRead .rdzc = true ∧
    ∀ e ∈ [PortEvent.command 0, .command 0x0600000000000000000000000000000000,
      .command 0x0400000000000000000000000000000000], leavesBlock e = true := by decide

theorem witness_ArrayHoldsExactlyItsIndices :
    15 < 2 ^ afterA1.params.P ∧ 2 ^ afterA1.params.P ≤ 16 ∧ (1 : Byte) ≠ 0 ∧ (14 : Nat) ≠ 15 := by decide

theorem witness_ParametersNeverChange :
    step { afterA1 with pending := [.reset] } = .next State.reset := rfl

theorem witness_RegistersNeverDecrease :
    clears (.command (encode (.add 0xA0000000 0 0 8))) = false ∧
    step { afterA1 with pending := [.command 0] } =
      .next { afterA1 with responses := [{ status := .ok, data := 0 }] } := ⟨by decide, rfl⟩

theorem witness_StepKeepsInvariant :
    Inv { afterA1 with pending := [.reset] } ∧ step { afterA1 with pending := [.reset] } = .next State.reset :=
  ⟨{ memWf := afterA1_inv.memWf, memBounded := afterA1_inv.memBounded, regsCapped := afterA1_inv.regsCapped,
     zerosExact := afterA1_inv.zerosExact, sumFinite := afterA1_inv.sumFinite,
     sumNotNegZero := afterA1_inv.sumNotNegZero }, rfl⟩

theorem witness_StepKeepsSumExact :
    Inv afterA1 ∧ SumExact afterA1 ∧ step afterA1 = .next afterA1 := ⟨afterA1_inv, afterA1_exact.2, rfl⟩

theorem witness_RepeatedAddIsIdempotent :
    Inv afterA1 ∧ ∀ e ∈ [PortEvent.command 0, .command 0x0400000000000000000000000000000000], clears e = false :=
  ⟨afterA1_inv, by decide⟩

theorem witness_AddOrderDoesNotMatter :
    [hashOf 1 0 0 1, hashOf 2 0 0 2].Perm [hashOf 2 0 0 2, hashOf 1 0 0 1] ∧ InExactRange afterA1 :=
  ⟨List.Perm.swap _ _ _, afterA1_exact.1⟩

theorem witness_ZeroCountIsLeastSetBit :
    (1 : Remainder) ≠ 0 ∧ (0x800000000000000000000000 : Remainder) ≠ 0 ∧ ctz96 1 = 0 ∧
    ctz96 0x800000000000000000000000 = 95 := by decide +kernel

theorem witness_ZeroCountIsReversedLeadingZeros : (1 : Remainder) ≠ 0 ∧ (95 : Nat) < 96 ∧ (0 : Nat) < 96 := by decide

theorem witness_RankOfFirstSetBit :
    remainder (hashOf 5 0 0 0) = 0 ∧ (remainder (hashOf 0 0x80000000 0 0)).getLsbD 95 = true ∧
    (∀ j < 95, (remainder (hashOf 0 0x80000000 0 0)).getLsbD j = false) ∧
    (remainder (hashOf 0 0 0 1)).getLsbD 0 = true := by decide +kernel

theorem witness_UpdatedRegisterFits : Inv afterA1 := afterA1_inv

theorem witness_PowerReciprocalIsExact : (0 : Nat) ≤ 97 ∧ (97 : Nat) ≤ 97 := by decide

theorem witness_ReciprocalDifferenceCases :
    (5 : Nat) ≤ 5 ∧ (0 : Nat) ≤ 53 ∧ (1 ≤ 53 - 0 ∧ 53 - 0 ≤ 53) ∧ (1 ≤ 97 - 96 ∧ 97 ≤ 97) ∧ 54 ≤ 54 - 0 ∧ 54 ≤ 97 - 43 := by
  decide

theorem witness_AddAndSubtractRoundCorrectly :
    Float64.isFinite 0x7FEFFFFFFFFFFFFF = true ∧ Float64.isFinite 0x0000000000000001 = true ∧
    Float64.isFinite (Float64.fadd 0x7FEFFFFFFFFFFFFF 0x0000000000000001) = true ∧
    Float64.isFinite (Float64.fsub 0x7FEFFFFFFFFFFFFF 0x0000000000000001) = true ∧
    Float64.scaled 0x3FF0000000000000 + Float64.scaled 0xBFF0000000000000 = 0 ∧
    Float64.isFinite 0x0000000000000000 = true ∧ (0x0000000000000000 : Word64) ≠ Float64.negZero ∧
    Float64.isFinite 0x8000000000000000 = true ∧ Float64.sign 0x8000000000000000 = true ∧
    Float64.scaled 0x8000000000000000 + Float64.scaled 0x8000000000000000 = 0 := by decide +kernel

theorem witness_AddingPlusZeroKeepsSum :
    Float64.isFinite 0x402E200000000000 = true ∧ (0x402E200000000000 : Word64) ≠ Float64.negZero := by decide

theorem witness_AccumulationStaysFinite :
    (0 : Nat) ≤ 97 ∧ (97 : Nat) ≤ 97 ∧ Float64.isFinite 0xFFEFFFFFFFFFFFFF = true ∧
    (0xFFEFFFFFFFFFFFFF : Word64) ≠ Float64.negZero := by decide

theorem witness_MergeTakesMaximaOfFoldedRegisters :
    sketchWf (sketch 2 [1, 0, 3, 2]) = true ∧ sketchWf (sketch 3 [0, 2, 4, 0, 1, 1, 0, 5]) = true ∧
    (3 : Nat) < 2 ^ 2 ∧ (7 : Nat) < 2 ^ 3 ∧ 7 / 2 ^ (3 - 2) = 3 ∧ 3 / 2 ^ (2 - 2) = 3 := by decide +kernel

theorem witness_MergeEndsAtCoarserPrecision :
    sketchWf (sketch 3 [0, 2, 4, 0, 1, 1, 0, 97]) = true ∧ sketchWf (sketch 1 [97, 0]) = true := by decide +kernel

theorem witness_MergeWithItselfKeepsRegisters : sketchWf (sketch 1 [97, 1]) = true := by decide +kernel

theorem witness_SnapshotReadsTheSketch : afterA1.zeros ≤ afterA1.params.NB := by decide

theorem witness_RescanRebuildsAggregates : Inv afterA1 ∧ SumExact afterA1 ∧ InExactRange afterA1 :=
  ⟨afterA1_inv, afterA1_exact.2, afterA1_exact.1⟩

theorem witness_RestorePutsSketchBack :
    (List.replicate 16 (97 : Byte)).length = afterA1.params.NB ∧
    ∀ v ∈ List.replicate 16 (97 : Byte), v.toNat ≤ afterA1.params.rankCap := by decide

theorem witness_SyntheticAddsFoldIntoBlock :
    (List.replicate 32 (97 : Byte)).length = 2 ^ (afterA1.params.P + 1) ∧
    ∀ v ∈ List.replicate 32 (97 : Byte), v.toNat ≤ afterA1.params.rankCap := by decide

theorem witness_AssembledWordsDecode : (4294967295 : Nat) < 2 ^ 32 ∧ (0 : Nat) < 2 ^ 32 := by decide

theorem witness_PseudoCommandsExpand :
    (2 ^ 128 - 1 : Nat) < 2 ^ 128 ∧ assembleSource resetParams .nop = some [0] ∧ (∀ x, Source.nop ≠ .cmd x) :=
  ⟨by decide, by decide, fun _ => by simp⟩

end Sys2Proof.Tests
end

section
/-! Scope: which parameters are accepted (R9), and that no step changes them (R3). -/

namespace Sys2Proof.Machine

/-- Elaboration of legal parameters gives exactly these (R9). -/
theorem elaborate_of_legal {P cap : Nat} (h : Params.Legal P cap) :
    Params.elaborate P cap = some { P := P, rankCap := cap, P_legal := h.1, rankCap_legal := h.2 } := dif_pos h

/-- Elaboration of illegal parameters is refused (R9). -/
theorem elaborate_of_not_legal {P cap : Nat} (h : ¬Params.Legal P cap) : Params.elaborate P cap = none := dif_neg h

/-- Settles O7: legal parameters are kept as asked for, all others are refused. -/
theorem onlyLegalParametersMakeAnInstance : Obligations.OnlyLegalParametersMakeAnInstance := by
  intro P cap
  by_cases h : Params.Legal P cap
  · rw [elaborate_of_legal h]
    refine ⟨⟨nofun, fun hn => absurd h hn⟩, fun p hp => ?_⟩
    obtain rfl := Option.some.inj hp
    exact ⟨rfl, rfl⟩
  · rw [elaborate_of_not_legal h]
    exact ⟨⟨fun _ => h, fun _ => rfl⟩, nofun⟩

/-- The update of `ADD` writes no parameter. -/
theorem addHash_params {s u : State} {h : Hash} (hu : s.addHash h = .ok u) : u.params = s.params := by
  rw [State.addHash_eq] at hu
  obtain rfl := Except.ok.inj hu
  rfl

/-- No command writes a parameter. -/
theorem exec_params {i : Instr} {s t : State} (h : exec i s = .next t) : t.params = s.params := by
  obtain ⟨-, rfl⟩ | ⟨w0, w1, w2, w3, u, -, hu, rfl⟩ | ⟨-, rfl⟩ | ⟨idx, -, ⟨-, rfl⟩ | ⟨-, rfl⟩⟩ | ⟨-, rfl⟩ | ⟨-, rfl⟩ :=
    exec_cases h
  case inr.inl => rw [State.respond_params, addHash_params hu]
  all_goals rfl

/-- Settles O24: the idle step, the reset, the refusal and each command all keep the parameters. -/
theorem parametersNeverChange : Obligations.ParametersNeverChange := by
  intro s t h
  obtain ⟨-, rfl⟩ | ⟨rest, -, rfl⟩ | ⟨w, rest, why, -, -, rfl⟩ | ⟨w, rest, i, -, -, hi⟩ := step_cases h
  · rfl
  · simp
  · simp
  · simpa using exec_params hi

end Sys2Proof.Machine
end

section
/-! Correct rounding of `fadd` and `fsub` (R7, R77, R78). On the grid of multiples of `2^s`, with `s` the excess bits of the
exact magnitude, `divNearestEven` answers the nearest point; every finite number is on that grid or lies below `2^52 * 2^s`,
itself a grid point no farther from the exact magnitude. -/

namespace Sys2Proof.Machine.Float64

open Safety

/-- The rounded quotient is the quotient or the next integer. -/
theorem divNearestEven_bounds (n d : Nat) : n / d ≤ divNearestEven n d ∧ divNearestEven n d ≤ n / d + 1 := by
  simp only [divNearestEven]
  split_ifs <;> omega

/-- The rounded quotient is within half a divisor, and even when it is exactly half a divisor away. -/
theorem divNearestEven_half {n d : Nat} (hd : 0 < d) :
    2 * |(divNearestEven n d : Int) * d - n| ≤ d ∧
    (2 * |(divNearestEven n d : Int) * d - n| = d → divNearestEven n d % 2 = 0) := by
  have hn : (n : Int) = (n / d : Nat) * d + (n % d : Nat) := by exact_mod_cast (Nat.div_add_mod' n d).symm
  have hr : n % d < d := Nat.mod_lt n hd
  have down : |((n / d : Nat) : Int) * d - n| = (n % d : Nat) := by
    rw [hn, sub_add_cancel_left, abs_neg, Nat.abs_cast]
  have up : |((n / d + 1 : Nat) : Int) * d - n| = d - (n % d : Nat) := by
    rw [hn, abs_of_nonneg] <;> push_cast <;> linarith
  simp only [divNearestEven]
  split_ifs with h1 h2 h3
  · rw [down]; omega
  · rw [up]; omega
  · rw [down]; omega
  · rw [up]; omega

/-- No multiple of the divisor is nearer than the rounded quotient's, and of two that are as near it is the even one. -/
theorem divNearestEven_nearest {n d : Nat} (hd : 0 < d) (k : Int) :
    |(divNearestEven n d : Int) * d - n| ≤ |k * d - n| ∧
    (k * d ≠ divNearestEven n d * d → |(divNearestEven n d : Int) * d - n| = |k * d - n| →
      divNearestEven n d % 2 = 0) := by
  obtain ⟨hhalf, heven⟩ := divNearestEven_half (n := n) hd
  generalize divNearestEven n d = m at *
  by_cases hk : k = m
  · subst hk; exact ⟨le_rfl, fun h => absurd rfl h⟩
  · have hapart : (d : Int) ≤ |k * d - m * d| := by
      rw [← sub_mul, abs_mul, Nat.abs_cast]
      exact le_mul_of_one_le_left (by positivity) (Int.one_le_abs (sub_ne_zero.2 hk))
    have htri := abs_sub_le (k * d) (n : Int) (m * d)
    rw [abs_sub_comm (n : Int)] at htri
    exact ⟨by linarith, fun _ heq => heven (by linarith)⟩

/-- A magnitude without excess bits is a 53-bit significand. -/
theorem lt_of_excessBits_eq_zero {n : Nat} (h : excessBits n = 0) : n < 2 ^ 53 := by
  by_contra hn
  have : 53 ≤ Nat.log2 n := (Nat.le_log2 (by omega)).2 (by omega)
  simp only [excessBits, hn, if_false] at h
  omega

/-- A magnitude with excess bits is at least the least normal significand, shifted by them. -/
theorem pow_le_of_excessBits {n : Nat} (h : excessBits n ≠ 0) : 2 ^ 52 * 2 ^ excessBits n ≤ n :=
  (Nat.le_div_iff_mul_le (by positivity)).1 (excessBits_quotient h).1

/-- The value of the fields that `roundMagnitude` forms from a significand `m` and `s` excess bits. -/
theorem fieldsValue_significand {s m : Nat} (hs : s ≠ 0 → 2 ^ 52 ≤ m) (hm : m ≤ 2 ^ 53) :
    fieldsValue (s * 2 ^ 52 + m) = m * 2 ^ s := by
  obtain hlow | rfl | ⟨hlo, hhi⟩ : m < 2 ^ 52 ∨ m = 2 ^ 53 ∨ (2 ^ 52 ≤ m ∧ m < 2 ^ 53) := by omega
  · obtain rfl : s = 0 := by_contra fun h => by have := hs h; omega
    simp only [fieldsValue]
    rw [if_pos (by omega)]
    omega
  · have hq : (s * 2 ^ 52 + 2 ^ 53) / 2 ^ 52 = s + 2 := by omega
    have hr : (s * 2 ^ 52 + 2 ^ 53) % 2 ^ 52 = 0 := by omega
    simp only [fieldsValue, hq, hr, Nat.add_eq_zero_iff, OfNat.ofNat_ne_zero, and_false, if_false]
    rw [show s + 2 - 1 = s + 1 by omega, pow_succ 2 s]
    ring
  · have hq : (s * 2 ^ 52 + m) / 2 ^ 52 = s + 1 := by omega
    have hr : 2 ^ 52 + (s * 2 ^ 52 + m) % 2 ^ 52 = m := by omega
    simp only [fieldsValue, hq, hr, Nat.add_eq_zero_iff, one_ne_zero, and_false, if_false, Nat.add_sub_cancel]

/-- Below the infinity, `roundMagnitude` of an integer is a significand's fields, of the value it says. -/
theorem roundMagnitude_significand {n : Nat} (h : roundMagnitude n 1 < infBits) :
    roundMagnitude n 1 = excessBits n * 2 ^ 52 + divNearestEven n (2 ^ excessBits n) ∧
    fieldsValue (roundMagnitude n 1) = divNearestEven n (2 ^ excessBits n) * 2 ^ excessBits n := by
  have hF : roundMagnitude n 1 = excessBits n * 2 ^ 52 + divNearestEven n (2 ^ excessBits n) := by
    simp only [roundMagnitude, Nat.div_one, one_mul] at h ⊢
    omega
  obtain ⟨hlo, hhi⟩ := divNearestEven_bounds n (2 ^ excessBits n)
  refine ⟨hF, hF ▸ fieldsValue_significand (fun hs => (excessBits_quotient hs).1.trans hlo) (hhi.trans ?_)⟩
  by_cases hs : excessBits n = 0
  · rw [hs, pow_zero, Nat.div_one]; exact lt_of_excessBits_eq_zero hs
  · exact (excessBits_quotient hs).2

/-- Every word's magnitude has a 53-bit significand. -/
theorem magnitude_representable (x : Word64) : Representable (magnitude x) := by
  have hf : fraction x < 2 ^ 52 := by rw [fraction_eq]; exact Nat.mod_lt _ (by positivity)
  simp only [magnitude]
  split
  · exact ⟨fraction x, 0, by omega, by simp⟩
  · exact ⟨2 ^ 52 + fraction x, expField x - 1, by omega, rfl⟩

theorem natAbs_scaled (x : Word64) : (scaled x).natAbs = magnitude x := by
  simp only [scaled]
  split <;> simp

/-- A representable number that is at least a normal significand shifted by `s` is on the grid of `2^s`. -/
theorem pow_dvd_of_representable {s : Nat} {y : Int} (hy : Representable y.natAbs) (h : 2 ^ 52 * 2 ^ s ≤ y) :
    (2 ^ s : Int) ∣ y := by
  obtain ⟨m, k, hm, hmk⟩ := hy
  have hle : 2 ^ (52 + s) ≤ y.natAbs := by
    rw [pow_add]; zify; exact h.trans (le_abs_self y)
  have hlt : 2 ^ (52 + s) < 2 ^ (53 + k) := by
    calc 2 ^ (52 + s) ≤ m * 2 ^ k := hmk ▸ hle
      _ < 2 ^ 53 * 2 ^ k := (Nat.mul_lt_mul_right (by positivity)).2 hm
      _ = 2 ^ (53 + k) := (pow_add 2 53 k).symm
  have hsk : s ≤ k := by have := (Nat.pow_lt_pow_iff_right (by norm_num)).1 hlt; omega
  have hdvd : 2 ^ s ∣ y.natAbs := hmk ▸ (Nat.pow_dvd_pow 2 hsk).trans (Nat.dvd_mul_left _ _)
  exact_mod_cast Int.natCast_dvd.2 hdvd

/-- The rounded magnitude is nearest among all representable integers, negative ones included, ties to even. -/
theorem roundMagnitude_nearest {n : Nat} (h : roundMagnitude n 1 < infBits) {y : Int} (hy : Representable y.natAbs) :
    |(fieldsValue (roundMagnitude n 1) : Int) - n| ≤ |y - n| ∧
    (y ≠ fieldsValue (roundMagnitude n 1) → |(fieldsValue (roundMagnitude n 1) : Int) - n| = |y - n| →
      roundMagnitude n 1 % 2 = 0) := by
  obtain ⟨hF, hV⟩ := roundMagnitude_significand h
  have hpar : roundMagnitude n 1 % 2 = divNearestEven n (2 ^ excessBits n) % 2 := by omega
  have grid := divNearestEven_nearest (n := n) (d := 2 ^ excessBits n) (by positivity)
  rw [hpar, hV]
  push_cast at grid ⊢
  by_cases hon : (2 ^ excessBits n : Int) ∣ y
  · obtain ⟨k, rfl⟩ := hon
    rw [mul_comm _ k]
    exact grid k
  · have hs : excessBits n ≠ 0 := fun hs => hon (by simp [hs])
    have hbelow : y < 2 ^ 52 * 2 ^ excessBits n := not_le.1 fun hle => hon (pow_dvd_of_representable hy hle)
    have hn : (2 ^ 52 * 2 ^ excessBits n : Int) ≤ n := by exact_mod_cast pow_le_of_excessBits hs
    have hfar : |(2 ^ 52 * 2 ^ excessBits n : Int) - n| < |y - n| := by
      rw [abs_of_nonpos (by linarith), abs_of_nonpos (by linarith)]
      linarith
    have hlt := (grid (2 ^ 52)).1.trans_lt hfar
    exact ⟨hlt.le, fun _ heq => absurd heq hlt.ne⟩

/-- Even fields make a word with an even significand. -/
theorem pack_getLsbD_zero_of_even (neg : Bool) {f : Nat} (h : f < 2 ^ 63) (heven : f % 2 = 0) :
    (pack neg f).getLsbD 0 = false := by
  rw [BitVec.getLsbD, pack_toNat neg h, Nat.testBit_eq_decide_div_mod_eq, decide_eq_false_iff_not]
  split <;> omega

/-- A packed rounded magnitude is finite only below the infinity. -/
theorem roundMagnitude_lt_infBits {neg : Bool} {n d : Nat} (h : isFinite (pack neg (roundMagnitude n d)) = true) :
    roundMagnitude n d < infBits := by
  have hle : roundMagnitude n d ≤ infBits := min_le_right _ _
  rw [isFinite, expField_pack neg (roundMagnitude_lt n d), bne_iff_ne] at h
  refine lt_of_le_of_ne hle fun heq => h ?_
  rw [heq]
  rfl

/-- An exact zero rounds to the zero of the given sign. -/
theorem roundScaled_zero (z : Bool) : roundScaled 0 z = if z then negZero else posZero := by
  cases z <;> rfl

/-- A finite rounded integer is nearest to it, ties to even (R7). -/
theorem roundScaled_nearestEven {e : Int} {z : Bool} (h : isFinite (roundScaled e z) = true) :
    NearestEven e (roundScaled e z) := by
  intro x _
  have hx : Representable (scaled x).natAbs := natAbs_scaled x ▸ magnitude_representable x
  by_cases h0 : e = 0
  · subst h0
    have hr : scaled (roundScaled 0 z) = 0 := by cases z <;> rfl
    rw [hr, sub_self, abs_zero, sub_zero]
    exact ⟨abs_nonneg _, fun hne heq => absurd (abs_eq_zero.1 heq.symm) hne⟩
  · rw [roundScaled, if_neg h0] at h ⊢
    have hF := roundMagnitude_lt_infBits h
    have h63 := roundMagnitude_lt e.natAbs 1
    have even := pack_getLsbD_zero_of_even (decide (e < 0)) h63
    rw [scaled_pack _ h63]
    by_cases hneg : e < 0
    · obtain ⟨hnear, htie⟩ := roundMagnitude_nearest hF (y := -scaled x) (by rwa [Int.natAbs_neg])
      have hflip (v : Int) : |-v - e| = |v - e.natAbs| := by
        rw [← abs_neg, show -(-v - e) = v - e.natAbs by omega]
      rw [← hflip, ← hflip (-scaled x), neg_neg] at hnear htie
      rw [if_pos (decide_eq_true hneg)]
      exact ⟨hnear, fun hne heq => even (htie (by omega) heq)⟩
    · obtain ⟨hnear, htie⟩ := roundMagnitude_nearest hF hx
      rw [show (e.natAbs : Int) = e by omega] at hnear htie
      rw [if_neg (by simpa using hneg)]
      exact ⟨hnear, fun hne heq => even (htie hne heq)⟩

/-- A finite sum of finite numbers is correctly rounded (R7, R78). -/
theorem fadd_nearestEven {a b : Word64} (ha : isFinite a = true) (hb : isFinite b = true)
    (h : isFinite (fadd a b) = true) : NearestEven (scaled a + scaled b) (fadd a b) := by
  rw [fadd_finite ha hb] at h ⊢
  exact roundScaled_nearestEven h

/-- An exact zero sum is `+0` unless both operands are negative. -/
theorem fadd_of_sum_zero {a b : Word64} (ha : isFinite a = true) (hb : isFinite b = true)
    (h : scaled a + scaled b = 0) :
    fadd a b = if sign a = true ∧ sign b = true then negZero else posZero := by
  rw [fadd_finite ha hb, h, roundScaled_zero]
  simp only [Bool.and_eq_true]

/-- A finite difference of finite numbers is correctly rounded (R7, R77). -/
theorem fsub_nearestEven {a b : Word64} (ha : isFinite a = true) (hb : isFinite b = true)
    (h : isFinite (fsub a b) = true) : NearestEven (scaled a - scaled b) (fsub a b) := by
  rw [sub_eq_add_neg, ← scaled_negate]
  exact fadd_nearestEven ha (by rwa [isFinite_negate]) h

/-- A finite number less itself is `+0` (R77). -/
theorem fsub_self {a : Word64} (ha : isFinite a = true) : fsub a a = posZero := by
  have hz : scaled a + scaled (negate a) = 0 := by rw [scaled_negate, add_neg_cancel]
  rw [fsub, fadd_of_sum_zero ha (by rwa [isFinite_negate]) hz, sign_negate]
  exact if_neg (by simp)

/-- Settles O41: `fadd` and `fsub` round the exact integer once, to the nearest point of the significand's grid. -/
theorem addAndSubtractRoundCorrectly : Obligations.AddAndSubtractRoundCorrectly := fun _ _ ha hb =>
  ⟨fadd_nearestEven ha hb, fadd_of_sum_zero ha hb, fsub_nearestEven ha hb, fsub_self ha⟩

end Sys2Proof.Machine.Float64
end

section
/-! Powers of two as words, the difference of two reciprocals, and what adding it does to `S` (R15, R76 to R79). The
difference lies between `-1` and `-2^(-97)`; of so small a number the largest finite magnitude takes no notice, and no zero
with a sign comes out. -/

namespace Sys2Proof.Machine.Float64

/-- Exponent field `e` and fraction 0 stand for a power of two. -/
theorem fieldsValue_power {e : Nat} (he : 1 ≤ e) : fieldsValue (e * 2 ^ 52) = 2 ^ (51 + e) := by
  obtain ⟨s, rfl⟩ := Nat.exists_eq_add_of_le' he
  rw [show (s + 1) * 2 ^ 52 = s * 2 ^ 52 + 2 ^ 52 by ring,
    fieldsValue_significand (fun _ => le_rfl) (by norm_num), ← pow_add]
  congr 1
  omega

/-- A word of an exponent field alone has no sign. -/
theorem ofNat_eq_pack (f : Nat) : BitVec.ofNat 64 f = pack false f := by simp [pack]

theorem scaled_ofNat_power {e : Nat} (he : 1 ≤ e) (h : e < 2 ^ 11) :
    scaled (BitVec.ofNat 64 (e * 2 ^ 52)) = 2 ^ (51 + e) := by
  rw [ofNat_eq_pack, scaled_pack false (by omega), fieldsValue_power he]
  simp

theorem sign_ofNat_power {e : Nat} (h : e < 2 ^ 11) : sign (BitVec.ofNat 64 (e * 2 ^ 52)) = false := by
  rw [ofNat_eq_pack, sign_pack false (by omega)]

/-- Fields below the infinity's make a finite word. -/
theorem isFinite_pack {neg : Bool} {f : Nat} (h : f < infBits) : isFinite (pack neg f) = true := by
  have : f / 2 ^ 52 < 2047 := by simp only [infBits] at h; omega
  rw [isFinite, expField_pack neg (by simp only [infBits] at h; omega), bne_iff_ne]
  omega

theorem isFinite_ofNat_power {e : Nat} (h : e < 2047) : isFinite (BitVec.ofNat 64 (e * 2 ^ 52)) = true := by
  rw [ofNat_eq_pack]
  exact isFinite_pack (by simp only [infBits]; omega)

theorem sign_pow2neg (r : Nat) : sign (pow2neg r) = false := sign_ofNat_power (by omega)

theorem isFinite_pow2neg (r : Nat) : isFinite (pow2neg r) = true := isFinite_ofNat_power (by omega)

/-- `pow2neg` is exact (R76). -/
theorem scaled_pow2neg {r : Nat} (h : r ≤ 1022) : scaled (pow2neg r) = 2 ^ (1074 - r) := by
  rw [pow2neg, scaled_ofNat_power (by omega) (by omega), show 51 + (1023 - r) = 1074 - r by omega]

/-- `S` after reset is `2^P` (R20). -/
theorem scaled_resetSum (p : Params) : scaled (resetSum p) = 2 ^ (p.P + 1074) := by
  have := p.P_legal
  rw [resetSum, scaled_ofNat_power (by omega) (by omega), show 51 + (1023 + p.P) = p.P + 1074 by omega]

theorem isFinite_resetSum (p : Params) : isFinite (resetSum p) = true := by
  have := p.P_legal
  exact isFinite_ofNat_power (by omega)

theorem resetSum_ne_negZero (p : Params) : resetSum p ≠ negZero := by
  have := p.P_legal
  intro h
  have hs : sign (resetSum p) = false := sign_ofNat_power (by omega)
  rw [h] at hs
  exact absurd hs (by decide)

/-- The difference of two reciprocals is their exact difference, rounded once (R77). -/
theorem fsub_pow2neg {old new : Nat} (ho : old ≤ 1022) (hn : new ≤ 1022) :
    fsub (pow2neg new) (pow2neg old) = roundScaled (2 ^ (1074 - new) - 2 ^ (1074 - old)) false := by
  rw [fsub, fadd_finite (isFinite_pow2neg _) (by rw [isFinite_negate, isFinite_pow2neg]), scaled_negate,
    scaled_pow2neg ho, scaled_pow2neg hn, sign_pow2neg, Bool.false_and, sub_eq_add_neg]

/-! ### Rounding keeps bounds -/

/-- A magnitude of `53 + k` bits has at most `k` excess bits. -/
theorem excessBits_le {n k : Nat} (h : n < 2 ^ (53 + k)) : excessBits n ≤ k := by
  simp only [excessBits]
  split
  · exact Nat.zero_le k
  · have := (Nat.log2_lt (by omega)).2 h
    omega

/-- The rounded significand has 53 bits, or is the carry into the next. -/
theorem divNearestEven_excessBits_le (n : Nat) : divNearestEven n (2 ^ excessBits n) ≤ 2 ^ 53 := by
  refine (divNearestEven_bounds n _).2.trans ?_
  by_cases hs : excessBits n = 0
  · rw [hs, pow_zero, Nat.div_one]; exact lt_of_excessBits_eq_zero hs
  · exact (excessBits_quotient hs).2

/-- A number less than half a step short of `c` steps rounds to fewer than `c`. -/
theorem divNearestEven_lt {n d c : Nat} (hd : 0 < d) (h : 2 * n + d < 2 * (c * d)) : divNearestEven n d < c := by
  have hhalf := (divNearestEven_half (n := n) hd).1
  have habs := le_abs_self ((divNearestEven n d : Int) * d - n)
  refine lt_of_mul_lt_mul_right ?_ (Nat.zero_le d)
  zify at h ⊢
  linarith

/-- Less than half a step above the largest finite number, rounding stays below the infinity. -/
theorem roundMagnitude_one_lt_infBits {n : Nat} (h : 2 * n + 2 ^ 2045 < 2 * (2 ^ 53 * 2 ^ 2045)) :
    roundMagnitude n 1 < infBits := by
  have hle : roundMagnitude n 1 ≤ excessBits n * 2 ^ 52 + divNearestEven n (2 ^ excessBits n) := by
    simp only [roundMagnitude, Nat.div_one, one_mul]
    exact min_le_left _ _
  have hs : excessBits n ≤ 2045 := excessBits_le (by rw [pow_add]; generalize 2 ^ 2045 = D at *; omega)
  simp only [infBits]
  obtain hs | hs := Nat.lt_or_eq_of_le hs
  · have := divNearestEven_excessBits_le n
    omega
  · rw [hs] at hle
    have := divNearestEven_lt (by positivity) h
    omega

/-- Rounding stays between two representable numbers. -/
theorem roundMagnitude_between {lo n hi : Nat} (hlo : Representable lo) (hhi : Representable hi) (h1 : lo ≤ n)
    (h2 : n ≤ hi) (h : roundMagnitude n 1 < infBits) :
    lo ≤ fieldsValue (roundMagnitude n 1) ∧ fieldsValue (roundMagnitude n 1) ≤ hi := by
  have nearLo := (roundMagnitude_nearest h (y := lo) hlo).1
  have nearHi := (roundMagnitude_nearest h (y := hi) hhi).1
  rw [abs_of_nonpos (by omega : (lo : Int) - n ≤ 0)] at nearLo
  rw [abs_of_nonneg (by omega : 0 ≤ (hi : Int) - n)] at nearHi
  have := abs_le.1 nearLo
  have := abs_le.1 nearHi
  omega

/-- A number that is not zero does not round to the zero fields. -/
theorem roundMagnitude_one_ne_zero {n : Nat} (h : n ≠ 0) : roundMagnitude n 1 ≠ 0 := by
  simp only [roundMagnitude, Nat.div_one, one_mul, infBits]
  by_cases hs : excessBits n = 0
  · rw [hs, pow_zero, divNearestEven_exact (one_dvd n) one_pos, Nat.div_one]
    omega
  · omega

/-- A power of two is representable. -/
theorem representable_pow (k : Nat) : Representable (2 ^ k) := ⟨1, k, by norm_num, (one_mul _).symm⟩

/-! ### The sum stays finite and is no negative zero -/

/-- The largest finite magnitude. -/
theorem magnitude_le {x : Word64} (h : isFinite x = true) : magnitude x ≤ (2 ^ 53 - 1) * 2 ^ 2045 := by
  have hf : fraction x < 2 ^ 52 := by rw [fraction_eq]; exact Nat.mod_lt _ (by positivity)
  have he : expField x < 2 ^ 11 := by rw [expField_eq]; exact Nat.mod_lt _ (by positivity)
  simp only [isFinite, bne_iff_ne] at h
  simp only [magnitude]
  split
  · exact le_mul_of_le_of_one_le (by omega) (Nat.succ_le_of_lt (by positivity))
  · exact Nat.mul_le_mul (by omega) (Nat.pow_le_pow_right two_pos (show expField x - 1 ≤ 2045 by omega))

/-- Two binary places up is four times as much. -/
theorem pow_mul_four_le {a b : Nat} (h : a + 2 ≤ b) : 2 ^ a * 4 ≤ 2 ^ b := by
  rw [show 4 = 2 ^ 2 from rfl, ← pow_add]
  exact Nat.pow_le_pow_right two_pos h

/-- A finite number and one of magnitude at most 1 have a finite sum (R15). -/
theorem isFinite_fadd_of_small {x d : Word64} (hx : isFinite x = true) (hd : isFinite d = true)
    (hsmall : magnitude d ≤ 2 ^ 1074) : isFinite (fadd x d) = true := by
  rw [fadd_finite hx hd, roundScaled]
  split
  · exact isFinite_pack (by norm_num [infBits])
  · refine isFinite_pack (roundMagnitude_one_lt_infBits ?_)
    have htri := Int.natAbs_add_le (scaled x) (scaled d)
    rw [natAbs_scaled, natAbs_scaled] at htri
    have hmax := magnitude_le hx
    have hpow := pow_mul_four_le (show 1074 + 2 ≤ 2045 by norm_num)
    generalize 2 ^ 2045 = D at *
    generalize 2 ^ 1074 = U at *
    omega

/-- The only negative word of magnitude 0. -/
theorem eq_negZero {x : Word64} (hs : sign x = true) (hm : magnitude x = 0) : x = negZero := by
  have hfields : x.toNat % 2 ^ 63 = 0 := by
    simp only [magnitude] at hm
    split at hm
    · next he => rw [expField_eq] at he; rw [fraction_eq] at hm; omega
    · exact absurd hm (by positivity)
  rw [← pack_self x, hs, hfields]
  rfl

/-- Adding a finite number to one that is not negative zero gives no negative zero (R15). -/
theorem fadd_ne_negZero {a b : Word64} (ha : isFinite a = true) (hb : isFinite b = true) (hne : a ≠ negZero) :
    fadd a b ≠ negZero := by
  by_cases h0 : scaled a + scaled b = 0
  · rw [fadd_of_sum_zero ha hb h0]
    split
    · next hs =>
      simp only [scaled, hs.1, hs.2, if_true] at h0
      exact absurd (eq_negZero hs.1 (by omega)) hne
    · decide
  · intro h
    rw [fadd_finite ha hb, roundScaled, if_neg h0] at h
    have hz := congrArg BitVec.toNat h
    rw [pack_toNat _ (roundMagnitude_lt _ _), show negZero.toNat = 2 ^ 63 from rfl] at hz
    have := roundMagnitude_one_ne_zero (Int.natAbs_ne_zero.2 h0)
    have := roundMagnitude_lt (scaled a + scaled b).natAbs 1
    split at hz <;> omega

/-! ### The difference of two reciprocals -/

/-- The gap between two powers of two lies between the smaller and the larger. -/
theorem pow_sub_pow_between {lo a b hi : Nat} (hlo : lo ≤ a) (hab : a < b) (hhi : b ≤ hi) :
    2 ^ lo ≤ 2 ^ b - 2 ^ a ∧ 2 ^ b - 2 ^ a ≤ 2 ^ hi := by
  have h1 : 2 ^ lo ≤ 2 ^ a := Nat.pow_le_pow_right two_pos hlo
  have h2 : 2 ^ (a + 1) ≤ 2 ^ b := Nat.pow_le_pow_right two_pos hab
  have h3 : 2 ^ b ≤ 2 ^ hi := Nat.pow_le_pow_right two_pos hhi
  rw [pow_succ] at h2
  omega

/-- Of a larger rank, the difference is the gap, rounded and negative (R77). -/
theorem fsub_pow2neg_of_lt {old new : Nat} (h : old < new) (h97 : new ≤ 97) :
    fsub (pow2neg new) (pow2neg old) = pack true (roundMagnitude (2 ^ (1074 - old) - 2 ^ (1074 - new)) 1) := by
  have hlt : 2 ^ (1074 - new) < 2 ^ (1074 - old) := Nat.pow_lt_pow_right (by norm_num) (by omega)
  have hcast : (2 : Int) ^ (1074 - new) - 2 ^ (1074 - old) = -((2 ^ (1074 - old) - 2 ^ (1074 - new) : Nat) : Int) := by
    push_cast [hlt.le]
    ring
  rw [fsub_pow2neg (by omega) (by omega), hcast, roundScaled]
  generalize 2 ^ (1074 - new) = a at *
  generalize 2 ^ (1074 - old) = b at *
  rw [if_neg (by omega), decide_eq_true (by omega), Int.natAbs_neg, Int.natAbs_natCast]

/-- Of a larger rank, the difference is finite, negative, and between `2^(-97)` and 1 in magnitude (R79). -/
theorem fsub_pow2neg_range {old new : Nat} (h : old < new) (h97 : new ≤ 97) :
    sign (fsub (pow2neg new) (pow2neg old)) = true ∧ isFinite (fsub (pow2neg new) (pow2neg old)) = true ∧
    2 ^ (1074 - 97) ≤ magnitude (fsub (pow2neg new) (pow2neg old)) ∧
    magnitude (fsub (pow2neg new) (pow2neg old)) ≤ 2 ^ 1074 := by
  obtain ⟨hlo, hhi⟩ := pow_sub_pow_between (show 1074 - 97 ≤ 1074 - new by omega)
    (show 1074 - new < 1074 - old by omega) (Nat.sub_le _ _)
  rw [fsub_pow2neg_of_lt h h97]
  generalize 2 ^ (1074 - old) - 2 ^ (1074 - new) = n at *
  have hfin : roundMagnitude n 1 < infBits := by
    refine roundMagnitude_one_lt_infBits ?_
    have hpow := pow_mul_four_le (show 1074 + 2 ≤ 2045 by norm_num)
    generalize 2 ^ 1074 = U at *
    generalize 2 ^ 2045 = D at *
    omega
  rw [sign_pack _ (roundMagnitude_lt _ _), magnitude_pack _ (roundMagnitude_lt _ _)]
  exact ⟨rfl, isFinite_pack hfin, roundMagnitude_between (representable_pow _) (representable_pow _) hlo hhi hfin⟩

/-- A magnitude between `2^(-97)` and 1 is a normal number's, of exponent at most that of 1. -/
theorem expField_of_magnitude {x : Word64} (hlo : 2 ^ (1074 - 97) ≤ magnitude x) (hhi : magnitude x ≤ 2 ^ 1074) :
    1 ≤ expField x ∧ expField x ≤ 1023 := by
  have hf : fraction x < 2 ^ 52 := by rw [fraction_eq]; exact Nat.mod_lt _ (by positivity)
  have he : expField x ≠ 0 := by
    intro h0
    rw [magnitude, if_pos h0] at hlo
    exact absurd (hf.trans_le (Nat.pow_le_pow_right (by norm_num) (by norm_num))) (not_lt.2 hlo)
  rw [magnitude, if_neg he] at hhi
  have hpow : 2 ^ (52 + (expField x - 1)) ≤ 2 ^ 1074 := by
    rw [pow_add]
    exact (Nat.mul_le_mul_right _ (Nat.le_add_right _ _)).trans hhi
  have := (Nat.pow_le_pow_iff_right (by norm_num)).1 hpow
  omega

/-- The difference of a rank that is not smaller is finite and at most 1 in magnitude. -/
theorem fsub_pow2neg_small {old new : Nat} (h : old ≤ new) (h97 : new ≤ 97) :
    isFinite (fsub (pow2neg new) (pow2neg old)) = true ∧ magnitude (fsub (pow2neg new) (pow2neg old)) ≤ 2 ^ 1074 := by
  obtain rfl | hlt := Nat.eq_or_lt_of_le h
  · rw [fsub_self (isFinite_pow2neg _)]
    exact ⟨by decide, Nat.zero_le _⟩
  · obtain ⟨-, hfin, -, hhi⟩ := fsub_pow2neg_range hlt h97
    exact ⟨hfin, hhi⟩

/-- Settles O43: the gap rounds to a number between its bounds, and the largest finite number absorbs a difference so small. -/
theorem accumulationStaysFinite : Obligations.AccumulationStaysFinite := by
  intro old new h h97
  refine ⟨?_, fun x hx hne => ?_⟩
  · obtain rfl | hlt := Nat.eq_or_lt_of_le h
    · exact .inl (fsub_self (isFinite_pow2neg _))
    · obtain ⟨hs, -, hlo, hhi⟩ := fsub_pow2neg_range hlt h97
      obtain ⟨h1, h2⟩ := expField_of_magnitude hlo hhi
      exact .inr ⟨hs, h1, h2, hlo, hhi⟩
  · obtain ⟨hfin, hsmall⟩ := fsub_pow2neg_small h h97
    exact ⟨isFinite_fadd_of_small hx hfin hsmall, fadd_ne_negZero hx hfin hne⟩

end Sys2Proof.Machine.Float64
end

section
/-! What one port event does to the block `(M, S, Z)`, in three cases: nothing, back to reset, or the update of one `ADD`.
The invariants are predicates on the block, so each is proved kept by a small goal per case. -/

namespace Sys2Proof.Machine

open Safety

/-- The state after the update of `ADD` (R90), as `State.addHash_eq` gives it. -/
def State.added (s : State) (h : Hash) : State :=
  { s with
    mem := Memory.write s.mem (bucketOf s.params h) (newValue s h)
    sum := accumulate s.sum (Memory.read s.mem (bucketOf s.params h)) (newValue s h)
    zeros := if Memory.read s.mem (bucketOf s.params h) = 0 then decrement s.params s.zeros else s.zeros }

section
variable (s : State) (h : Hash)

theorem State.addHash_eq_added : s.addHash h = .ok (s.added h) := s.addHash_eq h

@[simp] theorem State.added_params : (s.added h).params = s.params := rfl
@[simp] theorem State.added_mem :
    (s.added h).mem = Memory.write s.mem (bucketOf s.params h) (newValue s h) := rfl
@[simp] theorem State.added_sum :
    (s.added h).sum = accumulate s.sum (Memory.read s.mem (bucketOf s.params h)) (newValue s h) := rfl
@[simp] theorem State.added_zeros : (s.added h).zeros =
    if Memory.read s.mem (bucketOf s.params h) = 0 then decrement s.params s.zeros else s.zeros := rfl
@[simp] theorem State.added_pending : (s.added h).pending = s.pending := rfl
@[simp] theorem State.added_responses : (s.added h).responses = s.responses := rfl

end

/-- The register written is the larger of its value and the rank (R75). -/
theorem newValue_toNat (s : State) (h : Hash) :
    (newValue s h).toNat = max (Memory.read s.mem (bucketOf s.params h)).toNat (rankOf s.params h) := by
  rw [newValue, max8_toNat, rankByte_toNat]

theorem newValue_ne_zero (s : State) (h : Hash) : newValue s h ≠ 0 := max8_rankByte_ne_zero _ _ _

/-- The registers after an `ADD`: the bucket's is the new value, every other is as it was (R90). -/
theorem State.read_added (s : State) (h : Hash) (i : Nat) :
    Memory.read (s.added h).mem i = if i = bucketOf s.params h then newValue s h else Memory.read s.mem i := by
  rw [State.added_mem]
  split
  · next hi => rw [hi, Memory.read_write_same (newValue_ne_zero s h)]
  · next hi => exact Memory.read_write_other hi _ _

/-- An `ADD` lowers no register (R12). -/
theorem State.read_le_read_added (s : State) (h : Hash) (i : Nat) :
    (Memory.read s.mem i).toNat ≤ (Memory.read (s.added h).mem i).toNat := by
  rw [State.read_added]
  split
  · next hi => rw [hi, newValue_toNat]; exact le_max_left _ _
  · exact le_rfl

/-- A sum over the registers, after an `ADD`: the old value's summand is replaced by the new one's. -/
theorem State.sum_added (s : State) (h : Hash) (f : Byte → Nat) :
    ∑ i ∈ Finset.range s.params.NB, f (Memory.read (s.added h).mem i) + f (Memory.read s.mem (bucketOf s.params h)) =
      ∑ i ∈ Finset.range s.params.NB, f (Memory.read s.mem i) + f (newValue s h) := by
  have hb := Finset.mem_range.2 (bucketOf_lt s.params h)
  have hrest : ∑ i ∈ (Finset.range s.params.NB).erase (bucketOf s.params h), f (Memory.read (s.added h).mem i) =
      ∑ i ∈ (Finset.range s.params.NB).erase (bucketOf s.params h), f (Memory.read s.mem i) :=
    Finset.sum_congr rfl fun i hi => by rw [State.read_added, if_neg (Finset.ne_of_mem_erase hi)]
  rw [← Finset.add_sum_erase _ _ hb, ← Finset.add_sum_erase _ (fun i => f (Memory.read s.mem i)) hb, hrest,
    State.read_added, if_pos rfl]
  ring

/-! ### The commands and events, one equation each -/

theorem exec_add_eq (w0 w1 w2 w3 : Word32) (s : State) :
    exec (.add w0 w1 w2 w3) s = .next ((s.added (hashOf w0 w1 w2 w3)).respond .ok 0) := by
  simp only [exec, execAdd, State.addHash_eq_added]

theorem exec_rdreg_range {idx : Word32} {s : State} (h : s.params.NB ≤ idx.toNat) :
    exec (.rdreg idx) s = .next (s.respond .range 0) := by
  simp only [exec, execRdreg, if_pos h]

theorem exec_rdreg_ok {idx : Word32} {s : State} (h : idx.toNat < s.params.NB) :
    exec (.rdreg idx) s = .next (s.respond .ok ((Memory.read s.mem idx.toNat).setWidth 64)) := by
  simp only [exec, execRdreg, if_neg (not_le.2 h), State.readReg_ok h]

theorem step_reset {s : State} {rest : List PortEvent} (hp : s.pending = .reset :: rest) :
    step s = .next (s.take rest).clear := by
  simp only [step, hp]

theorem step_illegal {s : State} {w : CmdWord} {rest : List PortEvent} {why : Illegal}
    (hp : s.pending = .command w :: rest) (hd : decode w = .illegal why) :
    step s = .next (s.take rest).refuseIllegal := by
  simp only [step, hp, hd]

theorem step_instr {s : State} {w : CmdWord} {rest : List PortEvent} {i : Instr}
    (hp : s.pending = .command w :: rest) (hd : decode w = .instr i) : step s = exec i (s.take rest) := by
  simp only [step, hp, hd]

/-! ### The three cases of a step -/

/-- The same block, the two sides of the port aside. -/
theorem sameBlock_refl (s : State) : sameBlock s s := ⟨rfl, rfl, rfl, rfl⟩

/-- The block after a command: as it was, cleared by `INIT`, or updated by an `ADD`. -/
theorem exec_block {i : Instr} {s t : State} (h : exec i s = .next t) :
    sameBlock s t ∨ (i = .init ∧ sameBlock s.clear t) ∨ ∃ x, sameBlock (s.added x) t := by
  obtain ⟨-, rfl⟩ | ⟨w0, w1, w2, w3, u, -, hu, rfl⟩ | ⟨hi, rfl⟩ | ⟨idx, -, ⟨-, rfl⟩ | ⟨-, rfl⟩⟩ | ⟨-, rfl⟩ | ⟨-, rfl⟩ :=
    exec_cases h
  case inr.inl =>
    rw [State.addHash_eq_added] at hu
    obtain rfl := Except.ok.inj hu
    exact .inr (.inr ⟨_, sameBlock_refl _⟩)
  case inr.inr.inl => exact .inr (.inl ⟨hi, sameBlock_refl _⟩)
  all_goals exact .inl (sameBlock_refl _)

/-- The block after a step: as it was, cleared by an event that clears, or updated by an `ADD`. -/
theorem step_block {s t : State} (h : step s = .next t) :
    sameBlock s t ∨ ((∃ e rest, s.pending = e :: rest ∧ clears e = true) ∧ sameBlock s.clear t) ∨
    ∃ x, sameBlock (s.added x) t := by
  obtain ⟨-, rfl⟩ | ⟨rest, hp, rfl⟩ | ⟨w, rest, why, -, -, rfl⟩ | ⟨w, rest, i, hp, hd, hx⟩ := step_cases h
  · exact .inl (sameBlock_refl _)
  · exact .inr (.inl ⟨⟨_, _, hp, rfl⟩, sameBlock_refl _⟩)
  · exact .inl (sameBlock_refl _)
  · obtain hsame | ⟨rfl, hclear⟩ | hadd := exec_block hx
    · exact .inl hsame
    · exact .inr (.inl ⟨⟨_, _, hp, by simp [clears, hd]⟩, hclear⟩)
    · exact .inr (.inr hadd)

/-- Settles O25: a step that does not clear leaves each register or raises one to the maximum of it and a rank. -/
theorem registersNeverDecrease : Obligations.RegistersNeverDecrease := by
  intro s t h hkeep i
  rw [BitVec.le_def]
  obtain ⟨-, hmem, -, -⟩ | ⟨⟨e, rest, hp, he⟩, -⟩ | ⟨x, -, hmem, -, -⟩ := step_block h
  · rw [hmem]
  · rw [hkeep e rest hp] at he
    cases he
  · rw [hmem]
    exact s.read_le_read_added x i

/-- Settles O20: the cleared block is that of the reset state, and the port keeps what waits and the responses. -/
theorem resetEventClears : Obligations.ResetEventClears := fun _ _ hp => step_reset hp

end Sys2Proof.Machine
end

section
/-! The invariants (R11, R14, R15, R17, R30): each is a predicate on the block, holds of the cleared block and is kept by the
update of `ADD`; so every step keeps it. `S` is exact because, with `P + R <= 53`, the difference and the new sum are
53-bit multiples of one power of two, and no rounding happens. -/

namespace Sys2Proof.Machine

open Safety Float64

/-- States of the same block differ in the port's two sides only. -/
theorem eq_of_sameBlock {s t : State} (h : sameBlock s t) : t = { s with pending := t.pending, responses := t.responses } := by
  obtain ⟨hp, hm, hs, hz⟩ := h
  rw [← hp, ← hm, ← hs, ← hz]

theorem inv_of_sameBlock {s t : State} (h : sameBlock s t) (hs : Inv s) : Inv t := by
  rw [eq_of_sameBlock h]
  exact ⟨hs.memWf, hs.memBounded, hs.regsCapped, hs.zerosExact, hs.sumFinite, hs.sumNotNegZero⟩

theorem sumExact_of_sameBlock {s t : State} (h : sameBlock s t) (hs : SumExact s) : SumExact t := by
  rw [eq_of_sameBlock h]
  exact hs

/-! ### The cleared block -/

theorem zeroRegisters_clear (s : State) : zeroRegisters s.clear = s.params.NB := by
  simp [zeroRegisters, Memory.read, unlisted]

theorem exactSum_clear (s : State) : exactSum s.clear = 2 ^ (s.params.P + 1074) := by
  simp [exactSum, Memory.read, unlisted, pow_add]

theorem inv_clear (s : State) : Inv s.clear where
  memWf := rfl
  memBounded := by simp
  regsCapped := fun _ => Nat.zero_le _
  zerosExact := (zeroRegisters_clear s).symm
  sumFinite := isFinite_resetSum _
  sumNotNegZero := resetSum_ne_negZero _

theorem sumExact_clear (s : State) : SumExact s.clear := by
  intro _
  rw [exactSum_clear, State.clear_sum, scaled_resetSum]
  push_cast
  rfl

/-- Settles O28: the reset state is a cleared state. -/
theorem resetMeetsInvariants : Obligations.ResetMeetsInvariants := fun p =>
  ⟨inv_clear (State.resetOf p), sumExact_clear (State.resetOf p)⟩

/-! ### The block after an `ADD` -/

theorem zeroRegisters_eq_sum (s : State) :
    zeroRegisters s = ∑ i ∈ Finset.range s.params.NB, if Memory.read s.mem i = 0 then 1 else 0 :=
  Finset.card_filter _ _

theorem zeroRegisters_le (s : State) : zeroRegisters s ≤ s.params.NB :=
  (Finset.card_filter_le _ _).trans (Finset.card_range _).le

/-- One register fewer is zero when the bucket's was. -/
theorem zeroRegisters_added (s : State) (h : Hash) :
    zeroRegisters (s.added h) + (if Memory.read s.mem (bucketOf s.params h) = 0 then 1 else 0) = zeroRegisters s := by
  have hsum := s.sum_added h fun v => if v = 0 then 1 else 0
  rw [if_neg (newValue_ne_zero s h), Nat.add_zero] at hsum
  rw [zeroRegisters_eq_sum, zeroRegisters_eq_sum]
  exact hsum

/-- Within its range the counter does not wrap (R80). -/
theorem decrement_eq {p : Params} {z : Nat} (h1 : 1 ≤ z) (h2 : z ≤ p.NB) : decrement p z = z - 1 := by
  have hpos : 0 < 2 ^ p.P := by positivity
  rw [decrement, pow_succ, show z + (2 ^ p.P * 2 - 1) = z - 1 + 2 ^ p.P * 2 by omega, Nat.add_mod_right]
  exact Nat.mod_eq_of_lt (by simp only [Params.NB] at h2; omega)

/-- `Z` still counts the zero registers (R17). -/
theorem zerosExact_added {s : State} (hs : s.zeros = zeroRegisters s) (h : Hash) :
    (s.added h).zeros = zeroRegisters (s.added h) := by
  have hcount := zeroRegisters_added s h
  have hle := zeroRegisters_le s
  rw [State.added_zeros, hs]
  split
  · next h0 =>
    rw [if_pos h0] at hcount
    rw [decrement_eq (by omega) hle]
    omega
  · next h0 =>
    rw [if_neg h0] at hcount
    exact hcount.symm

/-- No register exceeds the cap after an `ADD` (R11). -/
theorem regsCapped_added {s : State} (hs : ∀ i, (Memory.read s.mem i).toNat ≤ s.params.rankCap) (h : Hash)
    (i : Nat) :
    (Memory.read (s.added h).mem i).toNat ≤ s.params.rankCap := by
  rw [State.read_added]
  split
  · rw [newValue_toNat]
    exact max_le (hs _) (rankOf_range _ _).2
  · exact hs i

/-- The old and the new value of the bucket's register, under the invariant. -/
theorem newValue_range {s : State} (hs : Inv s) (h : Hash) :
    (Memory.read s.mem (bucketOf s.params h)).toNat ≤ (newValue s h).toNat ∧ (newValue s h).toNat ≤ 97 := by
  have hcap := s.params.rankCap_legal.2
  rw [newValue_toNat]
  exact ⟨le_max_left _ _, (max_le (hs.regsCapped _) (rankOf_range _ _).2).trans hcap⟩

/-- The update of `ADD` keeps the invariant. -/
theorem inv_added {s : State} (hs : Inv s) (h : Hash) : Inv (s.added h) := by
  obtain ⟨hle, h97⟩ := newValue_range hs h
  obtain ⟨hfin, hne⟩ := (accumulationStaysFinite _ _ hle h97).2 s.sum hs.sumFinite hs.sumNotNegZero
  exact
    { memWf := Memory.write_wf hs.memWf _ _
      memBounded := Memory.write_bounded hs.memBounded (bucketOf_lt _ _) _
      regsCapped := regsCapped_added hs.regsCapped h
      zerosExact := zerosExact_added hs.zerosExact h
      sumFinite := hfin
      sumNotNegZero := hne }

/-- Settles O26: the cleared block meets the invariant, and the update of `ADD` keeps each of its parts. -/
theorem stepKeepsInvariant : Obligations.StepKeepsInvariant := by
  intro s t hs h
  obtain hsame | ⟨-, hclear⟩ | ⟨x, hadd⟩ := step_block h
  · exact inv_of_sameBlock hsame hs
  · exact inv_of_sameBlock hclear (inv_clear s)
  · exact inv_of_sameBlock hadd (inv_added hs x)

/-! ### The sum is exact in range -/

/-- A multiple of `2^k` within 53 bits of it is representable. -/
theorem representable_of_dvd {n k : Nat} (hd : 2 ^ k ∣ n) (hle : n ≤ 2 ^ (53 + k)) : Representable n := by
  obtain ⟨m, rfl⟩ := hd
  rw [pow_add, mul_comm (2 ^ 53)] at hle
  obtain hlt | rfl := Nat.lt_or_eq_of_le (Nat.le_of_mul_le_mul_left hle (by positivity))
  · exact ⟨m, k, hlt, mul_comm _ _⟩
  · exact ⟨1, k + 53, by norm_num, by rw [one_mul, pow_add]⟩

/-- Up to a gap of 53 the difference of two reciprocals is exact (R77). -/
theorem scaled_fsub_pow2neg {old new : Nat} (h : old ≤ new) (h97 : new ≤ 97) (hgap : new ≤ old + 53) :
    scaled (fsub (pow2neg new) (pow2neg old)) = 2 ^ (1074 - new) - 2 ^ (1074 - old) := by
  have habs : ((2 : Int) ^ (1074 - new) - 2 ^ (1074 - old)).natAbs = 2 ^ (1074 - old) - 2 ^ (1074 - new) := by
    have hle : 2 ^ (1074 - new) ≤ 2 ^ (1074 - old) := Nat.pow_le_pow_right two_pos (by omega)
    zify [hle]
    rw [abs_sub_comm, abs_of_nonneg]
    exact sub_nonneg.2 (by exact_mod_cast hle)
  rw [fsub_pow2neg (by omega) (by omega)]
  refine scaled_roundScaled _ ?_ ?_ <;> rw [habs]
  · refine representable_of_dvd (k := 1074 - new) (Nat.dvd_sub (Nat.pow_dvd_pow 2 (by omega)) dvd_rfl) ?_
    exact (Nat.sub_le _ _).trans (Nat.pow_le_pow_right two_pos (by omega))
  · exact (Nat.sub_le _ _).trans_lt (Nat.pow_lt_pow_right one_lt_two (by omega))

/-- `T` is at most `2^P` (R14). -/
theorem exactSum_le (s : State) : exactSum s ≤ 2 ^ (s.params.P + 1074) := by
  calc exactSum s ≤ (Finset.range s.params.NB).card • 2 ^ 1074 :=
        Finset.sum_le_card_nsmul _ _ _ fun _ _ => Nat.pow_le_pow_right two_pos (Nat.sub_le _ _)
    _ = 2 ^ (s.params.P + 1074) := by rw [Finset.card_range, smul_eq_mul, pow_add]

/-- Within the exact range `T` is a binary64 number (R14). -/
theorem exactSum_representable {s : State} (hr : InExactRange s) : Representable (exactSum s) := by
  refine representable_of_dvd (k := s.params.P + 1021) (Finset.dvd_sum fun i _ => ?_) ?_
  · have := hr i
    exact Nat.pow_dvd_pow 2 (by omega)
  · rw [show 53 + (s.params.P + 1021) = s.params.P + 1074 by omega]
    exact exactSum_le s

/-- `T` after an `ADD`: the old value's reciprocal is replaced by the new one's. -/
theorem exactSum_added (s : State) (h : Hash) :
    exactSum (s.added h) + 2 ^ (1074 - (Memory.read s.mem (bucketOf s.params h)).toNat) =
      exactSum s + 2 ^ (1074 - (newValue s h).toNat) :=
  s.sum_added h fun v => 2 ^ (1074 - v.toNat)

/-- Registers that only grew were in the exact range before. -/
theorem inExactRange_of_added {s : State} {h : Hash} (hr : InExactRange (s.added h)) : InExactRange s := fun i =>
  (Nat.add_le_add_left (s.read_le_read_added h i) _).trans (hr i)

/-- The update of `ADD` keeps `S` exact: the real sum after it needs no rounding (R14, R78). -/
theorem sumExact_added {s : State} (hs : Inv s) (he : SumExact s) (h : Hash) : SumExact (s.added h) := by
  intro hr
  obtain ⟨hle, h97⟩ := newValue_range hs h
  have hnew : (newValue s h).toNat ≤ 53 := by
    have := hr (bucketOf s.params h)
    rw [State.read_added, if_pos rfl] at this
    omega
  have hsum : scaled s.sum + scaled (fsub (pow2neg (newValue s h).toNat)
      (pow2neg (Memory.read s.mem (bucketOf s.params h)).toNat)) = exactSum (s.added h) := by
    have hT := exactSum_added s h
    rw [he (inExactRange_of_added hr), scaled_fsub_pow2neg hle h97 (by omega)]
    zify at hT
    linarith
  have hbound : exactSum (s.added h) < 2 ^ 2098 := by
    have hP := s.params.P_legal.2
    exact (exactSum_le _).trans_lt (Nat.pow_lt_pow_right one_lt_two (by rw [State.added_params]; omega))
  rw [State.added_sum, accumulate, fadd_exact hs.sumFinite (fsub_pow2neg_small hle h97).1 _ _, hsum]
  · rw [hsum]; exact exactSum_representable hr
  · rw [hsum]; exact hbound

/-- Settles O27: the cleared block's `S` is exact, and the update of `ADD` rounds nothing in range. -/
theorem stepKeepsSumExact : Obligations.StepKeepsSumExact := by
  intro s t hs he h
  obtain hsame | ⟨-, hclear⟩ | ⟨x, hadd⟩ := step_block h
  · exact sumExact_of_sameBlock hsame he
  · exact sumExact_of_sameBlock hclear (sumExact_clear s)
  · exact sumExact_of_sameBlock hadd (sumExact_added hs he x)

end Sys2Proof.Machine
end

section
/-! Whole runs (R57, R167): every event completes and gets the responses it is owed, so every sequence does; and what every
step keeps holds at the end of a run. -/

namespace Sys2Proof.Machine

open Safety

/-- Every command completes, in every state, with one response. -/
theorem exec_completes (i : Instr) (s : State) :
    ∃ t r, exec i s = .next t ∧ t.pending = s.pending ∧ t.responses = s.responses ++ [r] := by
  cases i with
  | addn => exact ⟨_, _, rfl, rfl, rfl⟩
  | add w0 w1 w2 w3 => exact ⟨_, _, exec_add_eq w0 w1 w2 w3 s, rfl, rfl⟩
  | init => exact ⟨_, _, rfl, rfl, rfl⟩
  | rdreg idx =>
    obtain hi | hi := Nat.lt_or_ge idx.toNat s.params.NB
    · exact ⟨_, _, exec_rdreg_ok hi, rfl, rfl⟩
    · exact ⟨_, _, exec_rdreg_range hi, rfl, rfl⟩
  | rdsum => exact ⟨_, _, rfl, rfl, rfl⟩
  | rdzc => exact ⟨_, _, rfl, rfl, rfl⟩

/-- The step on an event completes, takes the event and adds the responses it is owed. -/
theorem step_completes {s : State} {e : PortEvent} {rest : List PortEvent} (hp : s.pending = e :: rest) :
    ∃ t rs, step s = .next t ∧ t.pending = rest ∧ t.responses = s.responses ++ rs ∧ rs.length = owed [e] := by
  cases e with
  | reset => exact ⟨_, [], step_reset hp, rfl, (List.append_nil _).symm, rfl⟩
  | command w =>
    cases hd : decode w with
    | illegal why => exact ⟨_, _, step_illegal hp hd, rfl, rfl, rfl⟩
    | instr i =>
      obtain ⟨t, r, hx, hpend, hresp⟩ := exec_completes i (s.take rest)
      exact ⟨t, [r], (step_instr hp hd).trans hx, hpend, hresp, rfl⟩

theorem owed_cons (e : PortEvent) (es : List PortEvent) : owed (e :: es) = owed [e] + owed es :=
  List.countP_append (l₁ := [e])

/-- Every sequence of events is served to its end, each command answered. -/
theorem serve_completes (es : List PortEvent) (s : State) :
    ∃ t rs, serve es s = .next t ∧ t.pending = [] ∧ t.responses = s.responses ++ rs ∧ rs.length = owed es := by
  induction es generalizing s with
  | nil => exact ⟨_, [], serve_nil s, rfl, (List.append_nil _).symm, rfl⟩
  | cons e es ih =>
    obtain ⟨u, rs, hstep, -, hu, hrs⟩ := step_completes (s := { s with pending := [e] }) rfl
    obtain ⟨t, rs', hserve, hpend, ht, hrs'⟩ := ih u
    refine ⟨t, rs ++ rs', (serve_cons hstep es).trans hserve, hpend, ?_, ?_⟩
    · rw [ht, hu, List.append_assoc]
    · rw [List.length_append, hrs, hrs', owed_cons e es]

/-- What is said of the block alone and kept by every step holds at the end of a run. -/
theorem serve_keeps {I : State → Prop} (hblock : ∀ s t, sameBlock s t → I s → I t)
    (hkeep : ∀ s t, I s → step s = .next t → I t) {es : List PortEvent} {s t : State} (hs : I s)
    (h : serve es s = .next t) : I t := by
  induction es generalizing s with
  | nil =>
    rw [serve_nil] at h
    obtain rfl := Host.Outcome.next.inj h
    exact hblock s _ (sameBlock_refl s) hs
  | cons e es ih =>
    obtain ⟨u, -, hstep, -⟩ := step_completes (s := { s with pending := [e] }) rfl
    rw [serve_cons hstep] at h
    have hready : I { s with pending := [e] } := hblock s _ ⟨rfl, rfl, rfl, rfl⟩ hs
    exact ih (hkeep _ _ hready hstep) h

/-- What holds throughout a run from the reset state of the parameters `p` (R11, R14, R15, R17). -/
def Sound (p : Params) (s : State) : Prop := s.params = p ∧ Inv s ∧ SumExact s

theorem sound_of_sameBlock {p : Params} (s t : State) (h : sameBlock s t) (hs : Sound p s) : Sound p t := by
  obtain ⟨hp, hinv, hsum⟩ := hs
  exact ⟨h.1.trans hp, inv_of_sameBlock h hinv, sumExact_of_sameBlock h hsum⟩

theorem step_keeps_sound {p : Params} (s t : State) (hs : Sound p s) (h : step s = .next t) : Sound p t := by
  obtain ⟨hp, hinv, hsum⟩ := hs
  exact ⟨(parametersNeverChange s t h).trans hp, stepKeepsInvariant s t hinv h, stepKeepsSumExact s t hinv hsum h⟩

/-- Settles O29: the run completes, and soundness holds at reset and is kept by every step. -/
theorem everyRunIsSound : Obligations.EveryRunIsSound := by
  intro p es
  obtain ⟨t, rs, hserve, -, hresp, hlen⟩ := serve_completes es (State.resetOf p)
  obtain ⟨hp, hinv, hsum⟩ := serve_keeps sound_of_sameBlock step_keeps_sound ⟨rfl, resetMeetsInvariants p⟩ hserve
  refine ⟨t, hserve, hp, hinv, hsum, ?_⟩
  rw [hresp, List.length_append, hlen]
  exact Nat.zero_add _

end Sys2Proof.Machine
end

section
/-! The register array and the reads (R30, R37, R38, R120). A read is answered by a function of the block, and changes
nothing but the responses; so a list of reads is answered read by read from one block, and any events that leave the
block alone leave every later answer as it was. -/

namespace Sys2Proof.Machine

open Safety

/-- Settles O23: the array's read and write compare the index with `NB` and no more. -/
theorem arrayHoldsExactlyItsIndices : Obligations.ArrayHoldsExactlyItsIndices := by
  intro s i v
  refine ⟨fun hi => ⟨State.readReg_ok hi, _, State.writeReg_ok hi v, fun hv => ?_, fun j hj => ?_⟩, fun hi => ?_⟩
  · exact Memory.read_write_same hv s.mem i
  · exact Memory.read_write_other hj v s.mem
  · exact ⟨if_neg (not_lt.2 hi), if_neg (not_lt.2 hi)⟩

/-- A table word that decodes is decoded by `decode`. -/
theorem decode_tableWord {nbits w : Nat} {i : Instr} (h : decodeTableWord nbits w = some i) :
    decode (tableWord nbits w) = .instr i := by
  unfold decodeTableWord at h
  split at h
  · next j hj => rw [hj, Option.some.inj h]
  · cases h

/-- Settles O15: the word at the head is taken and its command performed; the word loaded stands at the head. -/
theorem stepRunsDecodedCommand : Obligations.StepRunsDecodedCommand :=
  ⟨fun _ _ _ _ hp hd => step_instr hp hd,
    fun s nbits w _ hd => step_instr (s.present_pending (tableWord nbits w)) (decode_tableWord hd)⟩

/-- A sequence in two parts is served part by part (R39). -/
theorem serve_append {es : List PortEvent} (fs : List PortEvent) {s t : State} (h : serve es s = .next t) :
    serve (es ++ fs) s = serve fs t := by
  induction es generalizing s with
  | nil =>
    obtain rfl := Host.Outcome.next.inj h
    rfl
  | cons e es ih =>
    obtain ⟨u, -, hstep, -⟩ := step_completes (s := { s with pending := [e] }) rfl
    rw [serve_cons hstep] at h
    rw [List.cons_append, serve_cons hstep]
    exact ih h

/-- Settles O18: by induction on the first part, each event of which completes. -/
theorem eventsTakeEffectInOrder : Obligations.EventsTakeEffectInOrder := fun _ fs _ _ h => serve_append fs h

/-! ### What a read answers -/

/-- The response to a read command in the state `s` (R101 to R103); the other commands are answered `OK`, data 0. -/
def readAnswer (s : State) : Instr → Response
  | .rdreg idx =>
    if s.params.NB ≤ idx.toNat then { status := .range, data := 0 }
    else { status := .ok, data := (Memory.read s.mem idx.toNat).setWidth 64 }
  | .rdsum => { status := .ok, data := s.sum }
  | .rdzc => { status := .ok, data := BitVec.ofNat 64 s.zeros }
  | .addn | .add .. | .init => { status := .ok, data := 0 }

/-- A read delivers its answer and does nothing else (R37). -/
theorem exec_read {i : Instr} (h : isRead i = true) (s : State) :
    exec i s = .next { s with responses := s.responses ++ [readAnswer s i] } := by
  cases i with
  | addn | add | init => cases h
  | rdreg idx =>
    obtain hi | hi := Nat.lt_or_ge idx.toNat s.params.NB
    · rw [exec_rdreg_ok hi, readAnswer, if_neg (not_le.2 hi)]; rfl
    · rw [exec_rdreg_range hi, readAnswer, if_pos hi]; rfl
  | rdsum | rdzc => rfl

/-- The answer to a read depends on the block alone. -/
theorem readAnswer_of_sameBlock {s t : State} (h : sameBlock s t) (i : Instr) : readAnswer t i = readAnswer s i := by
  rw [eq_of_sameBlock h]
  rfl

/-! ### Events that leave the block alone -/

/-- What is said of the block alone and kept by every step on an event of the kind `E` holds after a run of such
events. -/
theorem serve_keeps_along {I : State → Prop} {E : PortEvent → Prop} (hblock : ∀ s t, sameBlock s t → I s → I t)
    (hkeep : ∀ s t e rest, s.pending = e :: rest → E e → I s → step s = .next t → I t) {es : List PortEvent}
    {s t : State} (hes : ∀ e ∈ es, E e) (hs : I s) (h : serve es s = .next t) : I t := by
  induction es generalizing s with
  | nil =>
    obtain rfl := Host.Outcome.next.inj h
    exact hblock s _ (sameBlock_refl s) hs
  | cons e es ih =>
    obtain ⟨he, hrest⟩ := List.forall_mem_cons.1 hes
    obtain ⟨u, -, hstep, -⟩ := step_completes (s := { s with pending := [e] }) rfl
    rw [serve_cons hstep] at h
    have hready : I { s with pending := [e] } := hblock s _ (sameBlock_refl s) hs
    exact ih hrest (hkeep _ u e [] rfl he hready hstep) h

theorem sameBlock_trans {s t u : State} (h : sameBlock s t) (h' : sameBlock t u) : sameBlock s u := by
  obtain ⟨hp, hm, hs, hz⟩ := h
  obtain ⟨hp', hm', hs', hz'⟩ := h'
  exact ⟨hp'.trans hp, hm'.trans hm, hs'.trans hs, hz'.trans hz⟩

/-- A command that leaves the block alone is `ADDN` or a read. -/
theorem addn_or_isRead_of_leavesBlock {w : CmdWord} {i : Instr} (hd : decode w = .instr i)
    (h : leavesBlock (.command w) = true) : i = .addn ∨ isRead i = true := by
  simp only [leavesBlock, hd] at h
  cases i with
  | addn => exact .inl rfl
  | add | init => cases h
  | rdreg | rdsum | rdzc => exact .inr rfl

/-- A step on an event that is no `ADD`, `INIT` or reset leaves the block as it was (R37). -/
theorem step_sameBlock {s t : State} {e : PortEvent} {rest : List PortEvent} (hp : s.pending = e :: rest)
    (he : leavesBlock e = true) (h : step s = .next t) : sameBlock s t := by
  obtain ⟨hp', -⟩ | ⟨rest', hp', -⟩ | ⟨w, rest', why, -, -, rfl⟩ | ⟨w, rest', i, hp', hd, hx⟩ := step_cases h
  · cases hp.symm.trans hp'
  · obtain ⟨rfl, -⟩ := List.cons.inj (hp.symm.trans hp')
    cases he
  · exact sameBlock_refl s
  · obtain ⟨rfl, -⟩ := List.cons.inj (hp.symm.trans hp')
    obtain rfl | hread := addn_or_isRead_of_leavesBlock hd he
    · obtain rfl := Host.Outcome.next.inj hx
      exact sameBlock_refl s
    · rw [exec_read hread] at hx
      obtain rfl := Host.Outcome.next.inj hx
      exact sameBlock_refl s

/-- A run of such events leaves the block as it was. -/
theorem serve_sameBlock {es : List PortEvent} {s t : State} (hes : ∀ e ∈ es, leavesBlock e = true)
    (h : serve es s = .next t) : sameBlock s t :=
  serve_keeps_along (I := sameBlock s) (fun _ _ h hs => sameBlock_trans hs h)
    (fun _ _ _ _ hp he hs hstep => sameBlock_trans hs (step_sameBlock hp he hstep)) hes (sameBlock_refl s) h

/-- Settles O22: the events between leave the block, and the block determines the answer. -/
theorem readsHaveNoSideEffect : Obligations.ReadsHaveNoSideEffect := by
  intro s i es hi hes
  obtain ⟨u, -, hserve, -⟩ := serve_completes es { s with responses := s.responses ++ [readAnswer s i] }
  have hu : sameBlock s u := (serve_sameBlock hes hserve :)
  refine ⟨_, u, _, readAnswer s i, exec_read hi s, sameBlock_refl s, rfl, hserve, hu, exec_read hi u, ?_⟩
  rw [readAnswer_of_sameBlock hu]

/-! ### A snapshot -/

/-- The encoding of a read decodes to it (R51, R60). -/
theorem decode_encode_read {i : Instr} (h : isRead i = true) : decode (encode i) = .instr i := by
  cases i with
  | addn | add | init => cases h
  | rdreg idx =>
    have hhigh : (idx.setWidth 128).extractLsb' 32 96 = 0 := by ext k hk; simp
    have hlow : (idx.setWidth 128).extractLsb' 0 32 = idx := by
      rw [BitVec.extractLsb'_setWidth_of_le (by decide), BitVec.extractLsb'_eq_self]
    simp [decode, encode, opField_commandWord, plField_commandWord, hhigh, hlow]
  | rdsum | rdzc => decide

/-- A list of reads, served, delivers the answers the block gives to each, in order. -/
theorem serve_reads {is : List Instr} (h : ∀ i ∈ is, isRead i = true) (s : State) :
    serve (commandEvents is) s =
      .next { s with pending := [], responses := s.responses ++ is.map (readAnswer s) } := by
  induction is generalizing s with
  | nil => simp [commandEvents]
  | cons i is ih =>
    obtain ⟨hi, his⟩ := List.forall_mem_cons.1 h
    have hstep : step { s with pending := [.command (encode i)] } =
        .next { s with pending := [], responses := s.responses ++ [readAnswer s i] } :=
      (step_instr rfl (decode_encode_read hi)).trans (exec_read hi _)
    rw [commandEvents, List.map_cons, serve_cons hstep, ← commandEvents, ih his]
    simp only [List.append_assoc, List.map_cons, List.singleton_append]
    rfl

/-- The commands of a snapshot are reads. -/
theorem isRead_of_mem_snapshotCommands {p : Params} {i : Instr} (h : i ∈ snapshotCommands p) : isRead i = true := by
  simp only [snapshotCommands, List.mem_append, List.mem_map, List.mem_cons, List.not_mem_nil, or_false] at h
  obtain ⟨a, -, rfl⟩ | rfl | rfl := h <;> rfl

/-- The array fits the index operand of `RDREG` (R30, R53). -/
theorem NB_le (p : Params) : p.NB ≤ 2 ^ 32 := Nat.pow_le_pow_right two_pos p.P_legal.2

/-- A register of the array is answered `OK` with its value (R101). -/
theorem readAnswer_rdreg {s : State} {i : Nat} (h : i < s.params.NB) :
    readAnswer s (.rdreg (BitVec.ofNat 32 i)) = { status := .ok, data := (Memory.read s.mem i).setWidth 64 } := by
  have hi : (BitVec.ofNat 32 i).toNat = i := by
    rw [BitVec.toNat_ofNat, Nat.mod_eq_of_lt (h.trans_le (NB_le s.params))]
  rw [readAnswer, hi, if_neg (not_le.2 h)]

/-- The answers to a snapshot: each register, `S` and `Z` (R120). -/
theorem readAnswer_snapshotCommands (s : State) :
    (snapshotCommands s.params).map (readAnswer s) =
      (s.sketch.regs.map (·.setWidth 64) ++ [s.sum, BitVec.ofNat 64 s.zeros]).map
        fun d => { status := .ok, data := d } := by
  simp only [snapshotCommands, State.sketch, List.map_append, List.map_map]
  congr 1
  exact List.map_congr_left fun i hi => readAnswer_rdreg (List.mem_range.1 hi)

/-- The sketch of a register array, `S` and `Z` given as response data. -/
theorem sketchOfData_append (p : Params) {regs : List Byte} (hlen : regs.length = p.NB) (sum : Word64) {z : Nat}
    (hz : z < 2 ^ 64) :
    sketchOfData p (regs.map (·.setWidth 64) ++ [sum, BitVec.ofNat 64 z]) =
      { precision := p.P, regs := regs, sum := sum, zeros := z, alpha := alpha p.NB } := by
  have hbyte : ((·.setWidth 8) ∘ (·.setWidth 64) : Byte → Byte) = id := funext fun v => by simp
  have hlen' : (regs.map (·.setWidth 64 : Byte → Word64)).length = p.NB := by rw [List.length_map, hlen]
  simp only [sketchOfData, Sketch.mk.injEq, true_and, and_true]
  refine ⟨?_, ?_, ?_⟩
  · rw [List.take_left' hlen', List.map_map, hbyte, List.map_id]
  · rw [List.getD_append_right _ _ _ _ hlen'.le, hlen', Nat.sub_self]
    rfl
  · rw [List.getD_append_right _ _ _ _ (by omega), hlen', Nat.add_sub_cancel_left]
    exact Nat.mod_eq_of_lt hz

/-- Settles O49: the snapshot's commands are reads, and their answers are the array's registers, `S` and `Z`. -/
theorem snapshotReadsTheSketch : Obligations.SnapshotReadsTheSketch := by
  intro s hz
  have hz64 : s.zeros < 2 ^ 64 := (hz.trans (NB_le s.params)).trans_lt (by norm_num)
  have hlen : s.sketch.regs.length = s.params.NB := by simp [State.sketch]
  refine ⟨_, _, serve_reads (fun _ => isRead_of_mem_snapshotCommands) s, sameBlock_refl s, rfl, ?_⟩
  rw [readAnswer_snapshotCommands]
  refine ⟨fun r hr => ?_, ?_⟩
  · obtain ⟨d, -, rfl⟩ := List.mem_map.1 hr
    rfl
  · simp only [List.map_map, Function.comp_def, List.map_id']
    exact sketchOfData_append s.params hlen s.sum hz64

end Sys2Proof.Machine
end

section
/-! The decoder against the encoder and the opcode table (R51 to R54, R59, R60). The decoder is inverted once, by
`decode_spec`: a word is `ADDN` by its opcode, the encoding of a command, or illegal. A row's mask and match value are read
as two conditions, on the opcode and on the payload, which no illegal word meets. -/

namespace Sys2Proof.Machine

open Safety

/-! ### The index operand of `RDREG` -/

/-- The high 96 bits and the low word of a payload are the payload. -/
theorem high_append_low (pl : BitVec 128) : pl.extractLsb' 32 96 ++ pl.extractLsb' 0 32 = pl :=
  BitVec.extractLsb'_append_extractLsb' (w := 96) (len := 32)

theorem setWidth_index (idx : Word32) : idx.setWidth 128 = (0 : BitVec 96) ++ idx :=
  BitVec.setWidth_eq_append (by decide)

/-- A payload with nothing above its low word is that word, widened (R53). -/
theorem setWidth_low_of_high_zero {pl : BitVec 128} (h : pl.extractLsb' 32 96 = 0) :
    (pl.extractLsb' 0 32).setWidth 128 = pl := by
  rw [setWidth_index, ← h, high_append_low]

/-! ### The decoder, inverted -/

/-- A word with the opcode of `ADD` decodes to the `ADD` of its payload. -/
theorem decode_add {c : CmdWord} (h : opField c = 0x01) : decode c = .instr (addOf (plField c)) := by
  simp [decode, h, addOf, word0, word1, word2, word3]

/-- The encoding of a command decodes to it. -/
theorem decode_encode (i : Instr) : decode (encode i) = .instr i := by
  cases i with
  | addn | init => decide
  | add w0 w1 w2 w3 =>
    rw [encode, decode_add (opField_commandWord _ _), plField_commandWord, addOf, word0_hashOf, word1_hashOf,
      word2_hashOf, word3_hashOf]
  | rdreg | rdsum | rdzc => exact decode_encode_read rfl

/-- Settles O1: the fields of the encoded word are the opcode and the operands. -/
theorem decodeInvertsEncode : Obligations.DecodeInvertsEncode := decode_encode

/-- The encoding of the `ADD` of a hash holds the hash as its payload (R51). -/
theorem encode_addOf (h : Hash) : encode (addOf h) = commandWord 0x01 h := congrArg (commandWord 0x01) (hashOf_words h)

/-- What an answer of the decoder says of the word: `ADDN` looks at the opcode alone (R53 d), any other command's word is
its encoding, and a rejected word is illegal by R54. -/
inductive DecodesTo (c : CmdWord) : Decoded → Prop
  | addn (h : opField c = 0x00) : DecodesTo c (.instr .addn)
  | encoded (i : Instr) (h : encode i = c) : DecodesTo c (.instr i)
  | illegal (why : Illegal) (h : IllegalWord c) : DecodesTo c (.illegal why)

/-- A command without operands: its payload is zero, or the word is illegal (R53 c, R54 b). -/
theorem decodeBare_spec {i : Instr} {c : CmdWord} (he : encode i = commandWord (opField c) 0)
    (hop : opField c = 0x02 ∨ opField c = 0x04 ∨ opField c = 0x05) : DecodesTo c (decodeBare i c) := by
  rw [decodeBare]
  split
  · next hpl => exact .encoded i (by rw [he, ← hpl, commandWord_fields])
  · next hpl => exact .illegal _ (.inr (.inl ⟨hop, hpl⟩))

/-- The decoder, check by check (R59). -/
theorem decode_spec (c : CmdWord) : DecodesTo c (decode c) := by
  unfold decode
  split
  · next hop => exact .addn hop
  split
  · next hop => exact .encoded (addOf (plField c)) (by rw [encode_addOf, ← hop, commandWord_fields])
  split
  · next hop => exact decodeBare_spec (by rw [hop]; rfl) (.inl hop)
  split
  · next hop =>
    split
    · next hidx =>
      refine .encoded _ ?_
      rw [encode, setWidth_low_of_high_zero hidx, ← hop, commandWord_fields]
    · next hidx => exact .illegal _ (.inr (.inr ⟨hop, hidx⟩))
  split
  · next hop => exact decodeBare_spec (by rw [hop]; rfl) (.inr (.inl hop))
  split
  · next hop => exact decodeBare_spec (by rw [hop]; rfl) (.inr (.inr hop))
  · exact .illegal _ (.inl (by bv_omega))

/-- Settles O2: `ADDN` is the only command whose word is not determined. -/
theorem encodeInvertsDecode : Obligations.EncodeInvertsDecode := by
  intro c i hd hne
  have hspec := decode_spec c
  rw [hd] at hspec
  cases hspec with
  | addn => exact absurd rfl hne
  | encoded _ he => exact he

/-! ### The rows of the opcode table -/

/-- The opcode of a command's row (R52). -/
def opcodeOf : Instr → BitVec 8
  | .addn => 0x00
  | .add .. => 0x01
  | .init => 0x02
  | .rdreg _ => 0x03
  | .rdsum => 0x04
  | .rdzc => 0x05

/-- The payload bits that a command's row fixes at zero (R53). -/
def payloadMask : Instr → BitVec 128
  | .addn | .add .. => 0
  | .rdreg _ => BitVec.allOnes 96 ++ (0 : Word32)
  | .init | .rdsum | .rdzc => BitVec.allOnes 128

theorem rowMask_eq (i : Instr) : rowMask i = commandWord (BitVec.allOnes 8) (payloadMask i) := by
  cases i <;> simp only [rowMask, payloadMask] <;> decide

theorem rowMatch_eq (i : Instr) : rowMatch i = commandWord (opcodeOf i) 0 := by
  cases i <;> simp only [rowMatch, opcodeOf] <;> decide

theorem opField_encode (i : Instr) : opField (encode i) = opcodeOf i := by
  cases i <;> exact opField_commandWord _ _

/-- A word matches a row when it has the row's opcode and a payload that is zero under the row's mask. -/
theorem matches_row_iff (c : CmdWord) (i : Instr) :
    c &&& rowMask i = rowMatch i ↔ opField c = opcodeOf i ∧ plField c &&& payloadMask i = 0 := by
  have hand : c &&& rowMask i = commandWord (opField c) (plField c &&& payloadMask i) := by
    conv_lhs => rw [← commandWord_fields c]
    rw [rowMask_eq, commandWord, commandWord, BitVec.and_append, BitVec.and_allOnes, commandWord]
  rw [hand, rowMatch_eq]
  constructor
  · intro h
    exact ⟨by simpa only [opField_commandWord] using congrArg opField h,
      by simpa only [plField_commandWord] using congrArg plField h⟩
  · rintro ⟨hop, hpl⟩
    rw [hop, hpl]

/-- The payload mask of `RDREG`'s row covers the bits above the index. -/
theorem and_payloadMask_rdreg_eq_zero_iff (pl : BitVec 128) (idx : Word32) :
    pl &&& payloadMask (.rdreg idx) = 0 ↔ pl.extractLsb' 32 96 = 0 := by
  have hand : pl &&& payloadMask (.rdreg idx) = pl.extractLsb' 32 96 ++ (0 : Word32) := by
    conv_lhs => rw [← high_append_low pl]
    rw [payloadMask, BitVec.and_append, BitVec.and_allOnes]
    exact congrArg (_ ++ ·) BitVec.and_zero
  rw [hand]
  exact BitVec.append_left_inj (s₂ := (0 : BitVec 96)) (0 : Word32)

/-- The encoding of a command matches the command's row. -/
theorem encode_matches_row (i : Instr) : encode i &&& rowMask i = rowMatch i := by
  refine (matches_row_iff _ i).2 ⟨opField_encode i, ?_⟩
  cases i with
  | addn | add => exact BitVec.and_zero
  | init | rdsum | rdzc => rw [encode, plField_commandWord]; exact BitVec.zero_and
  | rdreg idx =>
    rw [encode, plField_commandWord, and_payloadMask_rdreg_eq_zero_iff, setWidth_index]
    exact BitVec.extractLsb'_append_eq_left

/-- A word that matches a row is legal. -/
theorem not_illegalWord_of_matches_row {c : CmdWord} {i : Instr} (h : c &&& rowMask i = rowMatch i) :
    ¬IllegalWord c := by
  obtain ⟨hop, hpl⟩ := (matches_row_iff c i).1 h
  cases i with
  | addn | add => simp [IllegalWord, hop, opcodeOf]
  | init | rdsum | rdzc =>
    have hzero : plField c = 0 := BitVec.and_allOnes.symm.trans hpl
    simp [IllegalWord, hop, opcodeOf, hzero]
  | rdreg idx =>
    have hhigh := (and_payloadMask_rdreg_eq_zero_iff _ idx).1 hpl
    simp [IllegalWord, hop, opcodeOf, hhigh]

/-- A word that decodes to a command matches that command's row. -/
theorem matches_row_of_decode {c : CmdWord} {i : Instr} (hd : decode c = .instr i) : c &&& rowMask i = rowMatch i := by
  have hspec := decode_spec c
  rw [hd] at hspec
  cases hspec with
  | addn hop => exact (matches_row_iff c .addn).2 ⟨hop, BitVec.and_zero⟩
  | encoded _ he => rw [← he, encode_matches_row]

/-- A word is rejected exactly when it is illegal (R54). -/
theorem illegalWord_iff (c : CmdWord) : IllegalWord c ↔ ∃ why, decode c = .illegal why := by
  constructor
  · intro h
    cases hd : decode c with
    | instr i => exact absurd h (not_illegalWord_of_matches_row (matches_row_of_decode hd))
    | illegal why => exact ⟨why, rfl⟩
  · rintro ⟨why, hd⟩
    have hspec := decode_spec c
    rw [hd] at hspec
    cases hspec with
    | illegal _ h => exact h

/-- Settles O3: the rejected words are the illegal ones, and the step on one only takes it and answers. -/
theorem illegalWordsAreRefused : Obligations.IllegalWordsAreRefused := by
  refine fun c => ⟨illegalWord_iff c, fun s rest hp hill => ?_⟩
  obtain ⟨why, hd⟩ := (illegalWord_iff c).1 hill
  exact step_illegal hp hd

/-- Settles O4: a word in a row is legal, so it decodes, to a command whose row has the same opcode. -/
theorem decodeFollowsOpcodeTable : Obligations.DecodeFollowsOpcodeTable := by
  refine fun c => ⟨fun i => matches_row_of_decode, fun i hrow => ?_⟩
  cases hd : decode c with
  | illegal why => exact absurd ((illegalWord_iff c).2 ⟨why, hd⟩) (not_illegalWord_of_matches_row hrow)
  | instr j =>
    obtain ⟨hi, -⟩ := (matches_row_iff c i).1 hrow
    obtain ⟨hj, -⟩ := (matches_row_iff c j).1 (matches_row_of_decode hd)
    exact ⟨j, rfl, by rw [rowMatch_eq, rowMatch_eq, ← hi, ← hj]⟩

/-- Settles O5: the nine words, evaluated. -/
theorem workedEncodingsDecode : Obligations.WorkedEncodingsDecode := by
  unfold Obligations.WorkedEncodingsDecode
  decide

end Sys2Proof.Machine
end

section
/-! The responses: the two fields of a response word (R56), and that every port event gets those it is owed (R57, R160). -/

namespace Sys2Proof.Machine

theorem word_data (r : Response) : r.word.extractLsb' 0 64 = r.data := BitVec.extractLsb'_append_eq_right

theorem word_status (r : Response) : r.word.extractLsb' 64 2 = r.status.code := BitVec.extractLsb'_append_eq_left

/-- No status has the fourth code (R56). -/
theorem code_ne_three (st : Status) : st.code ≠ 0b11 := by cases st <;> decide

/-- Settles O6: the two fields of the word are the code and the data. -/
theorem responseWordFields : Obligations.ResponseWordFields := fun d =>
  ⟨fun st => ⟨word_data ⟨st, d⟩, by rw [word_status]; exact code_ne_three st⟩,
    word_status ⟨.ok, d⟩, word_status ⟨.illegal, d⟩, word_status ⟨.range, d⟩⟩

/-- Settles O16: the idle step waits, and the step on an event adds what the event is owed. -/
theorem everyPortEventCompletes : Obligations.EveryPortEventCompletes := by
  intro s
  cases hp : s.pending with
  | nil => exact ⟨s, by simp only [step, hp], rfl⟩
  | cons e rest =>
    obtain ⟨t, rs, hstep, hpend, hresp, hlen⟩ := step_completes hp
    refine ⟨t, hstep, ?_⟩
    cases e with
    | reset =>
      obtain rfl := List.length_eq_zero_iff.1 hlen
      exact ⟨hpend, hresp.trans (List.append_nil _)⟩
    | command w =>
      obtain ⟨r, rfl⟩ := List.length_eq_one_iff.1 hlen
      exact ⟨hpend, r, hresp⟩

/-- Settles O17: by induction on the sequence, each event of which completes. -/
theorem runsAnswerEveryCommand : Obligations.RunsAnswerEveryCommand := serve_completes

end Sys2Proof.Machine
end

section
/-! The assembler (R60, R61): each word it emits, but for `.cmd`, is a command's encoding, so it decodes to that command;
and a number that fits its field is kept as written. -/

namespace Sys2Proof.Machine

theorem assembleSource_of_wellFormed (p : Params) {src : Source} (h : src.wellFormed = true) :
    assembleSource p src = some (expandSource p src) := if_pos h

theorem eq_expandSource_of_assembleSource {p : Params} {src : Source} {cs : List CmdWord}
    (h : assembleSource p src = some cs) : cs = expandSource p src := by
  unfold assembleSource at h
  split at h
  · exact (Option.some.inj h).symm
  · cases h

/-- A number that fits is kept as an operand. -/
theorem word32_toNat {n : Nat} (h : n < 2 ^ 32) : (word32 n).toNat = n := Nat.mod_eq_of_lt h

/-! ### The commands -/

theorem add_wellFormed {w0 w1 w2 w3 : Nat} (h0 : w0 < 2 ^ 32) (h1 : w1 < 2 ^ 32) (h2 : w2 < 2 ^ 32)
    (h3 : w3 < 2 ^ 32) : (Source.add w0 w1 w2 w3).wellFormed = true := by
  simp only [Source.wellFormed, h0, h1, h2, h3, decide_true, Bool.and_self]

theorem rdreg_wellFormed {idx : Nat} (h : idx < 2 ^ 32) : (Source.rdreg idx).wellFormed = true := decide_eq_true h

/-- Settles O53: the emitted word is the encoding of the command with the numbers as operands. -/
theorem assembledWordsDecode : Obligations.AssembledWordsDecode := by
  intro p
  refine ⟨fun w0 w1 w2 w3 h0 h1 h2 h3 => ?_, fun idx h => ?_, fun src i hmem => ?_⟩
  · exact ⟨_, _, _, _, _, assembleSource_of_wellFormed p (add_wellFormed h0 h1 h2 h3), decode_encode _,
      word32_toNat h0, word32_toNat h1, word32_toNat h2, word32_toNat h3⟩
  · exact ⟨_, _, assembleSource_of_wellFormed p (rdreg_wellFormed h), decode_encode _, word32_toNat h⟩
  · simp only [List.mem_cons, Prod.mk.injEq, List.not_mem_nil, or_false] at hmem
    obtain ⟨rfl, rfl⟩ | ⟨rfl, rfl⟩ | ⟨rfl, rfl⟩ | ⟨rfl, rfl⟩ := hmem <;>
      exact ⟨_, assembleSource_of_wellFormed p rfl, decode_encode _, plField_commandWord _ _⟩

/-! ### The pseudo-commands -/

/-- Narrowing a number to 32 bits does not see what lies above them. -/
theorem word32_mod (n : Nat) : word32 (n % 2 ^ 32) = word32 n :=
  BitVec.eq_of_toNat_eq (Nat.mod_mod n (2 ^ 32))

/-- A word of a 128-bit number, as a field and by division. -/
theorem extractLsb'_ofNat_hash {h : Nat} (hlt : h < 2 ^ 128) (k : Nat) :
    (BitVec.ofNat 128 h).extractLsb' k 32 = word32 (h / 2 ^ k) := by
  apply BitVec.eq_of_toNat_eq
  rw [BitVec.extractLsb'_toNat, BitVec.toNat_ofNat, Nat.mod_eq_of_lt hlt, Nat.shiftRight_eq_div_pow]
  rfl

/-- `ADDH h` is `ADD` of the four words of `h` (R61). -/
theorem assembleSource_addh (p : Params) {h : Nat} (hlt : h < 2 ^ 128) :
    assembleSource p (.addh h) =
      assembleSource p (.add (h / 2 ^ 96) (h / 2 ^ 64 % 2 ^ 32) (h / 2 ^ 32 % 2 ^ 32) (h % 2 ^ 32)) := by
  have hwf : (Source.addh h).wellFormed = true := decide_eq_true hlt
  rw [assembleSource_of_wellFormed p hwf, assembleSource_of_wellFormed p
    (add_wellFormed (by omega) (by omega) (by omega) (by omega))]
  simp only [expandSource, addOfHash, extractLsb'_ofNat_hash hlt, word32_mod, pow_zero, Nat.div_one]

/-- `.cmd x` is the word `x` itself (R61). -/
theorem assembleSource_cmd (p : Params) (x : CmdWord) : assembleSource p (.cmd x.toNat) = some [x] := by
  have hwf : (Source.cmd x.toNat).wellFormed = true := decide_eq_true x.isLt
  rw [assembleSource_of_wellFormed p hwf, expandSource, BitVec.ofNat_toNat, BitVec.setWidth_eq]

/-- A right fold that puts one word before the words so far, at every element, gives the list of the words. -/
theorem foldr_eq_some_map {f : Nat → Option (List CmdWord) → Option (List CmdWord)} {word : Nat → CmdWord}
    {is : List Nat} (hf : ∀ i ∈ is, ∀ ws, f i (some ws) = some (word i :: ws)) :
    is.foldr f (some []) = some (is.map word) := by
  induction is with
  | nil => rfl
  | cons i is ih =>
    obtain ⟨hi, his⟩ := List.forall_mem_cons.1 hf
    rw [List.foldr_cons, ih his, hi, List.map_cons]

/-- Every word of a source line other than `.cmd` is a command's encoding. -/
theorem exists_encode_of_mem_expandSource {p : Params} {src : Source} (hsrc : ∀ x, src ≠ .cmd x) {c : CmdWord}
    (hc : c ∈ expandSource p src) : ∃ i, encode i = c := by
  cases src with
  | cmd x => exact absurd rfl (hsrc x)
  | dump =>
    obtain ⟨i, -, he⟩ := List.mem_map.1 hc
    exact ⟨_, he⟩
  | addn | add | init | rdreg | rdsum | rdzc | nop | addh => exact ⟨_, (List.mem_singleton.1 hc).symm⟩

/-- Settles O54: `DUMP` is a fold of its reads, each of which fits its field, and only `.cmd` emits a word that is no
command's encoding. -/
theorem pseudoCommandsExpand : Obligations.PseudoCommandsExpand := by
  intro p
  refine ⟨rfl, fun h hlt => assembleSource_addh p hlt, ?_, assembleSource_cmd p, fun src cs hsrc hcs c hc => ?_⟩
  · refine (assembleSource_of_wellFormed p rfl).trans (foldr_eq_some_map fun i hi ws => ?_).symm
    have hfits : i < 2 ^ 32 := (List.mem_range.1 hi).trans_le (NB_le p)
    rw [assembleSource_of_wellFormed p (rdreg_wellFormed hfits)]
    rfl
  · rw [eq_expandSource_of_assembleSource hcs] at hc
    obtain ⟨i, rfl⟩ := exists_encode_of_mem_expandSource hsrc hc
    exact ⟨i, decode_encode i⟩

end Sys2Proof.Machine
end

section
/-! The operand functions of `ADD` (R70 to R75): the bucket as the hash's top bits, and the zero counts. Each of the model's
three scans is a run of clear bits, and such a run over a whole word is the library's `BitVec.clz` or `BitVec.ctz`, whose
lemmas say where the extreme set bit stands. -/

namespace Sys2Proof.Machine

/-- `word[0]` is the hash without its low 96 bits. -/
theorem word0_toNat (h : Hash) : (word0 h).toNat = h.toNat / 2 ^ 96 := by
  have := h.isLt
  rw [word0, BitVec.extractLsb'_toNat, Nat.shiftRight_eq_div_pow]
  exact Nat.mod_eq_of_lt (by omega)

theorem bucketOf_eq_div (p : Params) (h : Hash) : bucketOf p h = (word0 h).toNat / 2 ^ (32 - p.P) := by
  rw [bucketOf, BitVec.toNat_ushiftRight, Nat.shiftRight_eq_div_pow]

/-- Settles O34: the two shifts, out of the hash and out of `word[0]`, are one division. -/
theorem bucketIsTopBits : Obligations.BucketIsTopBits := by
  intro p h
  have hshift : 96 + (32 - p.P) = 128 - p.P := by have := p.P_legal; omega
  refine ⟨bucketOf_eq_div p h, ?_, bucketOf_lt p h⟩
  rw [bucketOf_eq_div, word0_toNat, Nat.div_div_eq_div_mul, ← pow_add, hshift]

/-! ### The scans are the library's zero counts -/

/-- How many of the bits `n - 1`, `n - 2`, … are clear, up to the first set one: the scan each zero count of the model makes. -/
def clearRun (bit : Nat → Bool) : Nat → Nat
  | 0 => 0
  | n + 1 => if bit n then 0 else 1 + clearRun bit n

/-- The library's leading-zero count makes the same scan, and adds the bits above it. -/
theorem clearRun_eq_clzAuxRec {w : Nat} (x : BitVec w) {n : Nat} (hn : n < w) :
    clearRun x.getLsbD (n + 1) + (w - 1 - n) = (x.clzAuxRec n).toNat := by
  have hw : w < 2 ^ w := Nat.lt_two_pow_self
  induction n with
  | zero =>
    rw [clearRun, BitVec.clzAuxRec_zero]
    split
    · rw [BitVec.toNat_ofNat, Nat.mod_eq_of_lt (by omega)]; omega
    · rw [BitVec.toNat_ofNat, Nat.mod_eq_of_lt hw, clearRun]; omega
  | succ n ih =>
    rw [clearRun, BitVec.clzAuxRec_succ]
    split
    · rw [BitVec.toNat_ofNat, Nat.mod_eq_of_lt (by omega), Nat.zero_add]
    · rw [← ih (by omega)]; omega

/-- A run over a whole word is its leading-zero count. -/
theorem clearRun_eq_clz {w : Nat} (hw : 0 < w) (x : BitVec w) : clearRun x.getLsbD w = x.clz.toNat := by
  have hrun := clearRun_eq_clzAuxRec x (show w - 1 < w by omega)
  rwa [show w - 1 + 1 = w by omega, Nat.sub_self] at hrun

theorem leadingZeros_eq_clearRun (x : Remainder) (n : Nat) : leadingZeros x n = clearRun x.getLsbD n := by
  induction n with
  | zero => rfl
  | succ n ih => rw [leadingZeros, clearRun, ih]

/-- Bit `n` of a reversed word. -/
theorem getLsbD_reverse_of_lt {w n : Nat} (x : BitVec w) (hn : n < w) :
    x.reverse.getLsbD n = x.getLsbD (w - 1 - n) := by
  rw [BitVec.getLsbD_reverse, BitVec.getMsbD_eq_getLsbD, decide_eq_true hn, Bool.true_and]

theorem scanZeros_eq_clearRun (t : Remainder) {n : Nat} (hn : n ≤ 96) :
    scanZeros t n = clearRun t.reverse.getLsbD n := by
  induction n with
  | zero => rfl
  | succ n ih => rw [scanZeros, clearRun, ih (by omega), getLsbD_reverse_of_lt t (by omega)]

theorem scanWord_eq_clearRun (w : Word32) {n : Nat} (hn : n ≤ 32) :
    scanWord w n = clearRun w.reverse.getLsbD n := by
  induction n with
  | zero => rfl
  | succ n ih => rw [scanWord, clearRun, ih (by omega), getLsbD_reverse_of_lt w (by omega)]

/-- `lzc96` is the leading-zero count (R74). -/
theorem lzc96_eq_clz (x : Remainder) : lzc96 x = x.clz.toNat :=
  (leadingZeros_eq_clearRun x 96).trans (clearRun_eq_clz (by norm_num) x)

/-- `ctz96` is the trailing-zero count (R72). -/
theorem ctz96_eq_ctz (t : Remainder) : ctz96 t = t.ctz.toNat :=
  (scanZeros_eq_clearRun t le_rfl).trans (clearRun_eq_clz (by norm_num) t.reverse)

/-- A word's scan is its trailing-zero count (R74). -/
theorem scanWord_eq_ctz (w : Word32) : scanWord w 32 = w.ctz.toNat :=
  (scanWord_eq_clearRun w le_rfl).trans (clearRun_eq_clz (by norm_num) w.reverse)

/-! ### Where the least and the greatest set bit stand -/

/-- A word with a set bit has fewer trailing zeros than bits. -/
theorem ctz_toNat_lt {w : Nat} {x : BitVec w} (hx : x ≠ 0) : x.ctz.toNat < w := by
  have hlt := BitVec.lt_def.1 (BitVec.ctz_lt_iff_ne_zero.2 hx)
  rwa [BitVec.natCast_eq_ofNat, BitVec.toNat_ofNat, Nat.mod_eq_of_lt Nat.lt_two_pow_self] at hlt

/-- A set bit with only clear bits below it is the one the trailing zeros end at. -/
theorem ctz_toNat_eq {w i : Nat} {x : BitVec w} (hset : x.getLsbD i = true)
    (hclear : ∀ j < i, x.getLsbD j = false) : x.ctz.toNat = i := by
  have hx : x ≠ 0 := by rintro rfl; simp at hset
  refine Nat.le_antisymm (not_lt.1 fun hlt => ?_) (not_lt.1 fun hlt => ?_)
  · exact absurd hset (by simp [BitVec.getLsbD_false_of_lt_ctz hlt])
  · exact absurd (BitVec.getLsbD_true_ctz_of_ne_zero hx) (by simp [hclear _ hlt])

/-- The zero word's leading zeros are all its bits. -/
theorem clz_zero_toNat (w : Nat) : (0#w).clz.toNat = w := by
  rw [BitVec.clz_eq_iff_eq_zero.2 rfl, BitVec.natCast_eq_ofNat, BitVec.toNat_ofNat, Nat.mod_eq_of_lt Nat.lt_two_pow_self]

theorem lzc96_zero : lzc96 0 = 96 := (lzc96_eq_clz 0).trans (clz_zero_toNat 96)

/-- `ctz96` is the leading-zero count of the reversed remainder (R74). -/
theorem ctz96_eq_lzc96_rev96 (t : Remainder) : ctz96 t = lzc96 (rev96 t) := by
  rw [ctz96_eq_ctz, BitVec.ctz_eq_reverse_clz, ← lzc96_eq_clz, rev96]

theorem ctz96_zero : ctz96 0 = 96 := by
  have hrev : rev96 0 = 0 := BitVec.reverse_eq_zero_iff.2 rfl
  rw [ctz96_eq_lzc96_rev96, hrev, lzc96_zero]

/-- The zero count is the index of the first set bit (R72). -/
theorem ctz96_eq {t : Remainder} {i : Nat} (hset : t.getLsbD i = true) (hclear : ∀ j < i, t.getLsbD j = false) :
    ctz96 t = i :=
  (ctz96_eq_ctz t).trans (ctz_toNat_eq hset hclear)

/-- Settles O35: the scan is the library's trailing-zero count. -/
theorem zeroCountIsLeastSetBit : Obligations.ZeroCountIsLeastSetBit := by
  refine ⟨ctz96_zero, fun t ht => ?_⟩
  rw [ctz96_eq_ctz]
  exact ⟨ctz_toNat_lt ht, BitVec.getLsbD_true_ctz_of_ne_zero ht, fun _ hi => BitVec.getLsbD_false_of_lt_ctz hi⟩

/-- Settles O37: the rank is read off the zero count, whose value the first set bit alone fixes. -/
theorem rankOfFirstSetBit : Obligations.RankOfFirstSetBit := by
  intro p h
  obtain ⟨hlo, hhi⟩ := rankOf_range p h
  refine ⟨hlo, hhi, fun hzero => ?_, fun i _ hset hclear => ?_⟩
  · rw [rankOf, hzero, ctz96_zero]
  · rw [rankOf, ctz96_eq hset hclear]

/-- The greatest set bit of a remainder is where its leading zeros end (R74). -/
theorem lzc96_greatest {x : Remainder} (hx : x ≠ 0) :
    ∃ i < 96, x.getLsbD i = true ∧ (∀ j, i < j → x.getLsbD j = false) ∧ lzc96 x = 95 - i := by
  have hlt : x.clz.toNat < 96 := by
    rw [BitVec.clz_eq_reverse_ctz]
    exact ctz_toNat_lt (by simpa using hx)
  have habove : x.toNat < 2 ^ (96 - x.clz.toNat) := BitVec.toNat_lt_two_pow_sub_clz
  refine ⟨95 - x.clz.toNat, by omega, BitVec.getLsbD_true_clz_of_ne_zero (by norm_num) hx, fun j hj => ?_, ?_⟩
  · exact Nat.testBit_lt_two_pow (habove.trans_le (Nat.pow_le_pow_right two_pos (by omega)))
  · rw [lzc96_eq_clz]; omega

/-! ### The count word by word -/

theorem remainder_getLsbD (h : Hash) {i : Nat} (hi : i < 96) : (remainder h).getLsbD i = h.getLsbD i := by
  rw [remainder, BitVec.getLsbD_extractLsb', decide_eq_true hi, Bool.true_and, Nat.zero_add]

/-- Bit `j` of the hash's word at `k`. -/
theorem getLsbD_word (h : Hash) (k : Nat) {j : Nat} (hj : j < 32) :
    (h.extractLsb' k 32).getLsbD j = h.getLsbD (k + j) := by
  rw [BitVec.getLsbD_extractLsb', decide_eq_true hj, Bool.true_and]

/-- Clear bits up to `k`, and then a zero word, are clear bits up to `k + 32`. -/
theorem getLsbD_below_add {h : Hash} {k : Nat} (hlow : ∀ j < k, h.getLsbD j = false) (hw : h.extractLsb' k 32 = 0) :
    ∀ j < k + 32, h.getLsbD j = false := by
  intro j hj
  obtain hjk | hjk := Nat.lt_or_ge j k
  · exact hlow j hjk
  · have hbit := getLsbD_word h k (show j - k < 32 by omega)
    rw [hw, Nat.add_sub_cancel' hjk] at hbit
    simpa using hbit.symm

/-- The zero count ends in the first word that is not zero. -/
theorem ctz96_remainder {h : Hash} {k : Nat} (hk : k ≤ 64) (hlow : ∀ j < k, h.getLsbD j = false)
    (hw : h.extractLsb' k 32 ≠ 0) : ctz96 (remainder h) = k + scanWord (h.extractLsb' k 32) 32 := by
  have hlt := ctz_toNat_lt hw
  have hset := BitVec.getLsbD_true_ctz_of_ne_zero hw
  rw [scanWord_eq_ctz]
  refine ctz96_eq ?_ fun j hj => ?_
  · rwa [remainder_getLsbD h (by omega), ← getLsbD_word h k hlt]
  · rw [remainder_getLsbD h (by omega)]
    obtain hjk | hjk := Nat.lt_or_ge j k
    · exact hlow j hjk
    · rw [← Nat.add_sub_cancel' hjk, ← getLsbD_word h k (by omega)]
      exact BitVec.getLsbD_false_of_lt_ctz (by omega)

/-- The word-wise count agrees, by which word is the first that is not zero (R74). -/
theorem ctz96_eq_ctzByWords (h : Hash) : ctz96 (remainder h) = ctzByWords h := by
  have low0 : ∀ j < 0, h.getLsbD j = false := fun j hj => absurd hj j.not_lt_zero
  have low32 (h3 : word3 h = 0) := getLsbD_below_add low0 h3
  have low64 (h3 : word3 h = 0) (h2 : word2 h = 0) := getLsbD_below_add (low32 h3) h2
  unfold ctzByWords
  split_ifs with h3 h2 h1
  · rw [← Nat.zero_add (scanWord _ _)]
    exact ctz96_remainder (by norm_num) low0 h3
  · exact ctz96_remainder (by norm_num) (low32 (not_not.1 h3)) h2
  · exact ctz96_remainder (by norm_num) (low64 (not_not.1 h3) (not_not.1 h2)) h1
  · have hzero : remainder h = 0 := by
      rw [← hashOf_words h, remainder_hashOf, not_not.1 h1, not_not.1 h2, not_not.1 h3]
      rfl
    rw [hzero, ctz96_zero]

/-- Settles O36: both counts are the library's, for which reversing turns one into the other. -/
theorem zeroCountIsReversedLeadingZeros : Obligations.ZeroCountIsReversedLeadingZeros := by
  refine ⟨fun t i hi => ?_, lzc96_zero, fun _ => lzc96_greatest, ctz96_eq_lzc96_rev96, ctz96_eq_ctzByWords⟩
  rw [rev96, getLsbD_reverse_of_lt t (by omega), show 96 - 1 - (95 - i) = i by omega]

/-! ### The updated register -/

/-- Settles O38: under the invariant neither the old value nor the rank exceeds 97. -/
theorem updatedRegisterFits : Obligations.UpdatedRegisterFits := by
  refine ⟨max8_toNat, fun s h hs => ?_⟩
  obtain ⟨-, h97⟩ := newValue_range hs h
  have hlt : (newValue s h).toNat < 2 ^ 7 := by omega
  exact ⟨newValue_toNat s h, h97, Nat.testBit_lt_two_pow hlt⟩

end Sys2Proof.Machine
end

section
/-! Reciprocals and their difference, exactly (R76, R77), and the neutral `+0` (R78): a finite word's magnitude rounds to its
own fields, and a power of two less at most half a step rounds to the power. -/

namespace Sys2Proof.Machine.Float64

/-! ### Words by their fields -/

/-- A word is its sign, exponent and fraction. -/
theorem eq_of_fields {x y : Word64} (hs : sign x = sign y) (he : expField x = expField y)
    (hf : fraction x = fraction y) : x = y := by
  rw [sign_eq, sign_eq, decide_eq_decide] at hs
  rw [expField_eq, expField_eq] at he
  rw [fraction_eq, fraction_eq] at hf
  apply BitVec.eq_of_toNat_eq
  have := x.isLt
  have := y.isLt
  omega

/-- Inverting the sign bit of a packed word inverts the sign packed. -/
theorem negate_pack (neg : Bool) {f : Nat} (h : f < 2 ^ 63) : negate (pack neg f) = pack (!neg) f := by
  apply eq_of_fields
  · rw [sign_negate, sign_pack _ h, sign_pack _ h]
  · rw [expField_negate, expField_pack _ h, expField_pack _ h]
  · rw [fraction_negate, fraction_pack _ h, fraction_pack _ h]

theorem pow2neg_eq_pack (r : Nat) : pow2neg r = pack false ((1023 - r) * 2 ^ 52) := ofNat_eq_pack _

/-- Settles O39: the fields are those packed, and an exponent field alone stands for a power of two. -/
theorem powerReciprocalIsExact : Obligations.PowerReciprocalIsExact := by
  intro r hr
  have hfields : (1023 - r) * 2 ^ 52 < 2 ^ 63 := by omega
  refine ⟨sign_pow2neg r, ?_, ?_, scaled_pow2neg (by omega)⟩
  · rw [pow2neg_eq_pack, expField_pack _ hfields, Nat.mul_div_cancel _ (by positivity)]
  · rw [pow2neg_eq_pack, fraction_pack _ hfields, Nat.mul_mod_left]

/-! ### Rounding a number next to a known one -/

/-- The excess bits are known from the significand's range. -/
theorem excessBits_eq {n s : Nat} (hlo : s ≠ 0 → 2 ^ 52 * 2 ^ s ≤ n) (hhi : n < 2 ^ 53 * 2 ^ s) : excessBits n = s := by
  refine Nat.le_antisymm (excessBits_le (by rwa [pow_add])) ?_
  obtain rfl | hs := eq_or_ne s 0
  · exact Nat.zero_le _
  · have hn : 2 ^ (52 + s) ≤ n := by rw [pow_add]; exact hlo hs
    have h53 : 2 ^ 53 ≤ n := (Nat.pow_le_pow_right two_pos (by omega)).trans hn
    have hlog := (Nat.le_log2 (by omega)).2 hn
    rw [excessBits, if_neg (by omega)]
    omega

/-- At most half a step below an even number of steps rounds up to it. -/
theorem divNearestEven_below_even {c d e : Nat} (hc : c % 2 = 0) (h0 : 0 < c) (he : 0 < e) (h : 2 * e ≤ d) :
    divNearestEven (c * d - e) d = c := by
  obtain ⟨q, rfl⟩ := Nat.exists_eq_add_of_le' h0
  have hn : (q + 1) * d - e = d * q + (d - e) := by rw [Nat.add_mul, mul_comm]; omega
  have hq : ((q + 1) * d - e) / d = q := by
    rw [hn, Nat.mul_add_div (by omega), Nat.div_eq_of_lt (by omega), Nat.add_zero]
  have hr : ((q + 1) * d - e) % d = d - e := by rw [hn, Nat.mul_add_mod, Nat.mod_eq_of_lt (by omega)]
  simp only [divNearestEven, hq, hr]
  split_ifs <;> omega

/-- A power of two less one 54 places below it or lower rounds to the power (R77). -/
theorem roundMagnitude_pow_sub_pow {a b : Nat} (hgap : a + 54 ≤ b) (hb : b ≤ 2098) :
    roundMagnitude (2 ^ b - 2 ^ a) 1 = (b - 51) * 2 ^ 52 := by
  obtain ⟨s, rfl⟩ := Nat.exists_eq_add_of_le (show 53 ≤ b by omega)
  have hpos : 0 < 2 ^ a := by positivity
  have hhalf : 2 * 2 ^ a ≤ 2 ^ s := by
    rw [mul_comm, ← pow_succ]
    exact Nat.pow_le_pow_right two_pos (by omega)
  have hs : excessBits (2 ^ 53 * 2 ^ s - 2 ^ a) = s := excessBits_eq (fun _ => by omega) (by omega)
  simp only [roundMagnitude, pow_add 2 53, Nat.div_one, one_mul, hs,
    divNearestEven_below_even (show 2 ^ 53 % 2 = 0 by norm_num) (by norm_num) hpos hhalf, infBits]
  omega

/-- Settles O40: no rounding up to a gap of 53; from 54 on the smaller reciprocal is at most half a step of the larger's
significand, and the tie at 54 goes to the power of two, which is even. -/
theorem reciprocalDifferenceCases : Obligations.ReciprocalDifferenceCases := by
  intro old new hle h97
  refine ⟨fun heq => ?_, fun _ hgap => ?_, fun hgap => ?_⟩
  · rw [heq]
    exact fsub_self (isFinite_pow2neg old)
  · rw [scaled_fsub_pow2neg hle h97 (by omega), neg_sub]
  · rw [fsub_pow2neg_of_lt (by omega) h97, roundMagnitude_pow_sub_pow (by omega) (by omega), pow2neg_eq_pack,
      negate_pack _ (by omega), show 1074 - old - 51 = 1023 - old by omega]
    rfl

/-! ### Rounding a word's own magnitude -/

/-- A significand and its excess bits round to the fields they make. -/
theorem roundMagnitude_significand_exact {s m : Nat} (hlo : s ≠ 0 → 2 ^ 52 ≤ m) (hm : m < 2 ^ 53)
    (h : s * 2 ^ 52 + m < infBits) : roundMagnitude (m * 2 ^ s) 1 = s * 2 ^ 52 + m := by
  have hs : excessBits (m * 2 ^ s) = s :=
    excessBits_eq (fun h0 => Nat.mul_le_mul_right _ (hlo h0)) ((Nat.mul_lt_mul_right (by positivity)).2 hm)
  simp only [roundMagnitude, Nat.div_one, one_mul, hs]
  rw [divNearestEven_exact (Nat.dvd_mul_left _ _) (by positivity), Nat.mul_div_cancel _ (by positivity)]
  exact min_eq_left h.le

/-- Rounding the value of finite fields gives the fields back. -/
theorem roundMagnitude_fieldsValue {f : Nat} (h : f < infBits) : roundMagnitude (fieldsValue f) 1 = f := by
  rw [fieldsValue]
  split
  · next hsub =>
    have := roundMagnitude_significand_exact (s := 0) (m := f % 2 ^ 52) (by simp) (by omega) (by omega)
    rw [pow_zero, mul_one] at this
    omega
  · next hnormal =>
    rw [roundMagnitude_significand_exact] <;> omega

/-- The sign of a number other than zero is its sign bit. -/
theorem decide_scaled_neg {x : Word64} (h0 : scaled x ≠ 0) : decide (scaled x < 0) = sign x := by
  cases hs : sign x with
  | false => rw [scaled, hs, if_neg Bool.false_ne_true, decide_eq_false_iff_not]; omega
  | true =>
    rw [scaled, hs, if_pos rfl] at h0 ⊢
    rw [decide_eq_true_eq]
    omega

theorem roundMagnitude_zero : roundMagnitude 0 1 = 0 :=
  roundMagnitude_fieldsValue (f := 0) (by norm_num [infBits])

/-- A finite number rounds to itself, to the word's last bit, zeros by their sign. -/
theorem roundScaled_scaled {x : Word64} {z : Bool} (h : isFinite x = true) (hz : scaled x = 0 → z = sign x) :
    roundScaled (scaled x) z = x := by
  have hself := pack_self x
  have hfin : x.toNat % 2 ^ 63 < infBits := by
    rw [isFinite, bne_iff_ne, expField_eq] at h
    simp only [infBits]
    omega
  have hmag : roundMagnitude (magnitude x) 1 = x.toNat % 2 ^ 63 := by
    rw [← roundMagnitude_fieldsValue hfin, ← magnitude_pack (sign x) (by omega), hself]
  rw [roundScaled]
  split
  · next h0 =>
    have hzero : x.toNat % 2 ^ 63 = 0 := by
      rw [← hmag, ← natAbs_scaled, h0, Int.natAbs_zero, roundMagnitude_zero]
    rw [hz h0, ← hzero, hself]
  · next h0 => rw [decide_scaled_neg h0, natAbs_scaled, hmag, hself]

/-- Settles O42: `+0` adds nothing to the exact sum, which rounds to `x` itself; only `-0` would lose its sign. -/
theorem addingPlusZeroKeepsSum : Obligations.AddingPlusZeroKeepsSum := by
  intro x hx hne
  have hsum : scaled x + scaled posZero = scaled x := add_zero _
  have hsign : scaled x = 0 → (sign x && sign posZero) = sign x := by
    intro h0
    have hm : magnitude x = 0 := by rw [← natAbs_scaled, h0]; rfl
    have hpos : sign x = false := Bool.eq_false_iff.2 fun hs => hne (eq_negZero hs hm)
    rw [hpos]
    rfl
  refine (fadd_finite hx (by decide)).trans ?_
  exact (congrArg (roundScaled · _) hsum).trans (roundScaled_scaled hx hsign)

end Sys2Proof.Machine.Float64
end

section
/-! The update commands `ADD` and `ADDN` (R90, R91). The rank of the hash decides what an `ADD` does to the block: one that
does not exceed the register writes back what the array holds, and the difference it adds to `S` is `+0`. -/

namespace Sys2Proof.Machine

open Float64

/-- Every word of opcode 0 decodes to `ADDN` (R53 d). -/
theorem decode_commandWord_addn (pl : BitVec 128) : decode (commandWord 0x00 pl) = .instr .addn :=
  if_pos (opField_commandWord 0x00 pl)

/-- The register of the hash's bucket, after its `ADD`. -/
theorem State.read_added_bucketOf (s : State) (h : Hash) :
    Memory.read (s.added h).mem (bucketOf s.params h) = newValue s h := by
  rw [State.read_added, if_pos rfl]

theorem bucketOf_zero (p : Params) : bucketOf p 0 = 0 := by
  rw [bucketOf_eq_div, word0_toNat]
  simp

/-- The all-zero hash has the largest rank (R73, R91). -/
theorem rankOf_zero (p : Params) : rankOf p 0 = min 97 p.rankCap := by
  obtain ⟨-, -, hzero, -⟩ := rankOfFirstSetBit p 0
  exact hzero (by decide)

/-- Settles O8: the opcode alone makes an `ADDN`; the zero hash has bucket 0 and the largest rank. -/
theorem addnDoesNothing : Obligations.AddnDoesNothing := by
  refine ⟨decode_commandWord_addn, decode_encode (.add 0 0 0 0), fun s h0 => ?_, fun _ => rfl⟩
  have hash : hashOf 0 0 0 0 = 0 := by decide
  refine ⟨_, exec_add_eq 0 0 0 0 s, ?_⟩
  have hread := s.read_added_bucketOf 0
  rw [bucketOf_zero] at hread
  rw [hash, State.respond_mem, hread, newValue_toNat, bucketOf_zero, h0, rankOf_zero]
  exact Nat.zero_max _

/-- Settles O9: the fields of `State.added`, with the bucket and the rank read off the words of the hash. -/
theorem addUpdatesBucketAndAggregates : Obligations.AddUpdatesBucketAndAggregates := by
  intro s w0 w1 w2 w3 b rank old new
  have hb : b = bucketOf s.params (hashOf w0 w1 w2 w3) := by rw [bucketOf, word0_hashOf]
  have hr : rank = rankOf s.params (hashOf w0 w1 w2 w3) := by rw [rankOf, remainder_hashOf]
  have hnew : (newValue s (hashOf w0 w1 w2 w3)).toNat = new := by rw [newValue_toNat, ← hb, ← hr]
  refine ⟨_, exec_add_eq w0 w1 w2 w3 s, ?_, ?_, fun a ha => ?_, ?_, ?_, fun h0 h1 h2 => ?_, rfl, rfl, rfl⟩
  · rw [hb]
    exact bucketOf_lt s.params _
  · rw [State.respond_mem, hb, State.read_added_bucketOf, hnew]
  · rw [State.respond_mem, State.read_added, if_neg (hb ▸ ha)]
  · rw [State.respond_sum, State.added_sum, accumulate, hnew, ← hb]
  · rw [State.respond_zeros, State.added_zeros, ← hb]
    rfl
  · rw [State.respond_zeros, State.added_zeros, ← hb, if_pos h0, decrement_eq h1 h2]

/-- A canonical memory does not change when a value it holds is written back. -/
theorem Memory.write_read_self {m : List Host.Cell} (h : Memory.wf m = true) (a : Nat) :
    Memory.write m a (Memory.read m a) = m := by
  refine Memory.eq_of_reads_eq (Memory.write_wf h a _) h fun i => ?_
  by_cases hi : i = a
  · rw [hi, Memory.read_write_same_wf h]
  · exact Memory.read_write_other hi _ m

/-- A register that keeps its value adds nothing to `S`, bit for bit (R77, R78). -/
theorem accumulate_self {sum : Word64} (hfin : isFinite sum = true) (hne : sum ≠ negZero) (v : Byte) :
    accumulate sum v v = sum := by
  rw [accumulate, fsub_self (isFinite_pow2neg _)]
  exact addingPlusZeroKeepsSum sum hfin hne

/-- The update of a rank that does not exceed the register changes nothing (R90 b). -/
theorem State.added_of_rankOf_le {s : State} {h : Hash} (hwf : Memory.wf s.mem = true)
    (hfin : isFinite s.sum = true) (hne : s.sum ≠ negZero)
    (hle : rankOf s.params h ≤ (Memory.read s.mem (bucketOf s.params h)).toNat) : s.added h = s := by
  have hsame : newValue s h = Memory.read s.mem (bucketOf s.params h) :=
    BitVec.eq_of_toNat_eq ((newValue_toNat s h).trans (max_eq_left hle))
  have hne0 : Memory.read s.mem (bucketOf s.params h) ≠ 0 := hsame ▸ newValue_ne_zero s h
  rw [State.added, hsame, Memory.write_read_self hwf, accumulate_self hfin hne, if_neg hne0]

/-- Settles O10: the register and the array stay as they are, and `S` gains `+0`. -/
theorem addOfLowerRankChangesNothing : Obligations.AddOfLowerRankChangesNothing := by
  intro s w0 w1 w2 w3 hwf hfin hne hle
  rw [exec_add_eq, State.added_of_rankOf_le hwf hfin hne hle]
  rfl

end Sys2Proof.Machine
end

section
/-! Sequences of `ADD`s (R92, R93). Each `ADD` raises its bucket's register to at least its rank and no event but `INIT` and
reset lowers it, so a second `ADD` of the same hash finds its rank there already. From reset a register is the maximum of
its bucket's ranks, in which the order does not show; `Z`, and in the exact range `S`, are functions of the registers. -/

namespace Sys2Proof.Machine

open Safety Float64

/-- The first of a sequence of events being the `ADD` of a hash, the rest is served from the updated block. -/
theorem serve_addOf_cons (h : Hash) (es : List PortEvent) (s : State) :
    serve (.command (encode (addOf h)) :: es) s = serve es ((s.added h).respond .ok 0) := by
  have hstep := (step_instr (s := { s with pending := [.command (encode (addOf h))] }) rfl (decode_encode _)).trans
    (exec_add_eq (word0 h) (word1 h) (word2 h) (word3 h) _)
  rw [hashOf_words] at hstep
  exact serve_cons hstep es

/-! ### A repeated `ADD` -/

/-- The invariant, and that the register of the bucket of `h` has reached the rank of `h`. -/
def Absorbs (h : Hash) (s : State) : Prop :=
  Inv s ∧ rankOf s.params h ≤ (Memory.read s.mem (bucketOf s.params h)).toNat

theorem absorbs_of_sameBlock {h : Hash} (s t : State) (hb : sameBlock s t) (hs : Absorbs h s) : Absorbs h t := by
  obtain ⟨hinv, hrank⟩ := hs
  refine ⟨inv_of_sameBlock hb hinv, ?_⟩
  obtain ⟨hp, hmem, -, -⟩ := hb
  rwa [hp, hmem]

theorem absorbs_added {s : State} (hs : Inv s) (h : Hash) : Absorbs h (s.added h) := by
  refine ⟨inv_added hs h, ?_⟩
  rw [State.added_params, State.read_added_bucketOf, newValue_toNat]
  exact le_max_right _ _

/-- An event that does not clear lowers no register (R12). -/
theorem step_keeps_absorbs {h : Hash} (s t : State) (e : PortEvent) (rest : List PortEvent)
    (hp : s.pending = e :: rest) (he : clears e = false) (hs : Absorbs h s) (hstep : step s = .next t) :
    Absorbs h t := by
  obtain ⟨hinv, hrank⟩ := hs
  have hkeep : ∀ e' rest', s.pending = e' :: rest' → clears e' = false := fun e' rest' hp' => by
    obtain ⟨rfl, -⟩ := List.cons.inj (hp.symm.trans hp')
    exact he
  refine ⟨stepKeepsInvariant s t hinv hstep, ?_⟩
  rw [parametersNeverChange s t hstep]
  exact hrank.trans (BitVec.le_def.1 (registersNeverDecrease s t hstep hkeep _))

/-- An absorbed hash's update changes nothing (R90 b). -/
theorem added_of_absorbs {h : Hash} {s : State} (hs : Absorbs h s) : s.added h = s := by
  obtain ⟨hinv, hrank⟩ := hs
  exact State.added_of_rankOf_le hinv.memWf hinv.sumFinite hinv.sumNotNegZero hrank

/-- Settles O30: the first `ADD` makes the block absorb the hash, and the events after it keep that. -/
theorem repeatedAddIsIdempotent : Obligations.RepeatedAddIsIdempotent := by
  intro s h es hs hes
  obtain ⟨t, -, hserve, -⟩ := serve_completes es ((s.added h).respond .ok 0)
  have hfirst : Absorbs h ((s.added h).respond .ok 0) :=
    absorbs_of_sameBlock (s.added h) _ (sameBlock_refl _) (absorbs_added hs h)
  have ht : Absorbs h t := serve_keeps_along absorbs_of_sameBlock step_keeps_absorbs hes hfirst hserve
  refine ⟨t, _, (serve_addOf_cons h es s).trans hserve, serve_addOf_cons h [] t, ?_⟩
  rw [added_of_absorbs ht]
  exact sameBlock_refl t

/-! ### The registers after a list of `ADD`s -/

/-- What the `ADD` of `h` makes of the value `m` of register `i`. -/
def raiseByRank (p : Params) (i m : Nat) (h : Hash) : Nat := if bucketOf p h = i then max m (rankOf p h) else m

theorem maxRank_eq_foldl (p : Params) (i : Nat) (hs : List Hash) : maxRank p i hs = hs.foldl (raiseByRank p i) 0 := rfl

theorem State.read_added_toNat (s : State) (h : Hash) (i : Nat) :
    (Memory.read (s.added h).mem i).toNat = raiseByRank s.params i (Memory.read s.mem i).toNat h := by
  rw [State.read_added, raiseByRank]
  by_cases hi : bucketOf s.params h = i
  · rw [if_pos hi.symm, if_pos hi, newValue_toNat, hi]
  · rw [if_neg (Ne.symm hi), if_neg hi]

/-- Each `ADD` of a list raises each register in its turn. -/
theorem read_of_serve_adds {hs : List Hash} {s t : State} (h : serve (commandEvents (hs.map addOf)) s = .next t)
    (i : Nat) :
    (Memory.read t.mem i).toNat = hs.foldl (raiseByRank s.params i) (Memory.read s.mem i).toNat := by
  induction hs generalizing s with
  | nil =>
    obtain rfl := Host.Outcome.next.inj h
    rfl
  | cons x xs ih =>
    rw [List.foldl_cons, ← State.read_added_toNat]
    exact ih ((serve_addOf_cons x _ s).symm.trans h)

/-- Raising by a list of ranks stays within a bound exactly when the start and the bucket's ranks do. -/
theorem foldl_raiseByRank_le_iff (p : Params) (i v : Nat) (hs : List Hash) (m : Nat) :
    hs.foldl (raiseByRank p i) m ≤ v ↔ m ≤ v ∧ ∀ h ∈ hs, bucketOf p h = i → rankOf p h ≤ v := by
  induction hs generalizing m with
  | nil => simp
  | cons x xs ih =>
    rw [List.foldl_cons, ih, List.forall_mem_cons, ← and_assoc, raiseByRank]
    refine and_congr_left' ?_
    split
    · next hi => simp only [hi, max_le_iff, forall_const]
    · next hi => simp only [hi, false_imp_iff, and_true]

/-- The largest rank of a bucket is the least bound on its ranks. -/
theorem maxRank_le_iff (p : Params) (i v : Nat) (hs : List Hash) :
    maxRank p i hs ≤ v ↔ ∀ h ∈ hs, bucketOf p h = i → rankOf p h ≤ v := by
  rw [maxRank_eq_foldl, foldl_raiseByRank_le_iff]
  exact and_iff_right (Nat.zero_le v)

/-- Only a bucket without a hash has largest rank 0, since every rank is at least 1 (R73). -/
theorem maxRank_eq_zero_iff (p : Params) (i : Nat) (hs : List Hash) :
    maxRank p i hs = 0 ↔ ∀ h ∈ hs, bucketOf p h ≠ i := by
  rw [← Nat.le_zero, maxRank_le_iff]
  refine forall₂_congr fun h _ => imp_congr_right fun _ => ⟨fun hle => ?_, False.elim⟩
  have := (rankOf_range p h).1
  omega

/-- The order of the hashes does not show in the largest rank. -/
theorem maxRank_perm {hs gs : List Hash} (h : hs.Perm gs) (p : Params) (i : Nat) :
    maxRank p i hs = maxRank p i gs :=
  eq_of_forall_ge_iff fun v => by simp only [maxRank_le_iff, h.mem_iff]

/-- A list of `ADD`s from reset ends in a sound state, whose registers are the largest ranks (R93). -/
theorem serve_adds_from_reset (p : Params) (hs : List Hash) :
    ∃ t, serve (commandEvents (hs.map addOf)) (State.resetOf p) = .next t ∧ Sound p t ∧
      ∀ i, (Memory.read t.mem i).toNat = maxRank p i hs := by
  obtain ⟨t, hserve, hp, hinv, hsum, -⟩ := everyRunIsSound p (commandEvents (hs.map addOf))
  exact ⟨t, hserve, ⟨hp, hinv, hsum⟩, read_of_serve_adds hserve⟩

/-- Settles O31: `Z` counts the zero registers, which are those of the buckets without a hash. -/
theorem registersHoldMaximumRanks : Obligations.RegistersHoldMaximumRanks := by
  intro p hs
  obtain ⟨t, hserve, ⟨hp, hinv, -⟩, hreg⟩ := serve_adds_from_reset p hs
  have hzero (i : Nat) : Memory.read t.mem i = 0 ↔ ∀ h ∈ hs, bucketOf p h ≠ i := by
    rw [← maxRank_eq_zero_iff, ← hreg, BitVec.toNat_eq]
    rfl
  refine ⟨t, hserve, hreg, ?_⟩
  rw [hinv.zerosExact, zeroRegisters, hp]
  simp only [hzero]

/-! ### The order of `ADD`s -/

/-- Finite words of one value are the same word, negative zero aside. -/
theorem eq_of_scaled_eq {x y : Word64} (hx : isFinite x = true) (hx0 : x ≠ negZero) (hy : isFinite y = true)
    (hy0 : y ≠ negZero) (h : scaled x = scaled y) : x = y := by
  have hz : isFinite posZero = true := by decide
  have hs : sign posZero = false := by decide
  calc x = fadd x posZero := (addingPlusZeroKeepsSum x hx hx0).symm
    _ = fadd y posZero := by rw [fadd_finite hx hz, fadd_finite hy hz, h, hs, Bool.and_false, Bool.and_false]
    _ = y := addingPlusZeroKeepsSum y hy hy0

/-- In a sound state the registers determine `Z`, and in the exact range `S` (R14, R17). -/
theorem aggregates_eq_of_mem_eq {p : Params} {t u : State} (ht : Sound p t) (hu : Sound p u) (hmem : t.mem = u.mem) :
    t.zeros = u.zeros ∧ (InExactRange t → t.sum = u.sum) := by
  obtain ⟨htp, ht, hte⟩ := ht
  obtain ⟨hup, hu, hue⟩ := hu
  have hp : t.params = u.params := htp.trans hup.symm
  refine ⟨?_, fun hr => ?_⟩
  · rw [ht.zerosExact, hu.zerosExact, zeroRegisters, zeroRegisters, hp, hmem]
  · have hr' : InExactRange u := by rwa [InExactRange, ← hp, ← hmem]
    refine eq_of_scaled_eq ht.sumFinite ht.sumNotNegZero hu.sumFinite hu.sumNotNegZero ?_
    rw [hte hr, hue hr', exactSum, exactSum, hp, hmem]

/-- Settles O32: the two arrays hold the same largest ranks, and determine the aggregates. -/
theorem addOrderDoesNotMatter : Obligations.AddOrderDoesNotMatter := by
  intro p hs gs hperm
  obtain ⟨t, hserve, ht, hreg⟩ := serve_adds_from_reset p hs
  obtain ⟨u, hserve', hu, hreg'⟩ := serve_adds_from_reset p gs
  have hmem : t.mem = u.mem := by
    obtain ⟨-, ht, -⟩ := ht
    obtain ⟨-, hu, -⟩ := hu
    refine Memory.eq_of_reads_eq ht.memWf hu.memWf fun i => BitVec.eq_of_toNat_eq ?_
    rw [hreg, hreg', maxRank_perm hperm]
  exact ⟨t, u, hserve, hserve', hmem, aggregates_eq_of_mem_eq ht hu hmem⟩

/-- The block after two `ADD`s from reset. -/
def afterTwoAdds (p : Params) (g h : Hash) : State :=
  ((((State.resetOf p).added g).respond .ok 0).added h).respond .ok 0

theorem serve_two_adds (p : Params) (g h : Hash) :
    serve (commandEvents [addOf g, addOf h]) (State.resetOf p) = .next (afterTwoAdds p g h) :=
  (serve_addOf_cons g _ _).trans (serve_addOf_cons h [] _)

/-- An instance of two registers. -/
def twoRegisters : Params := { P := 1, rankCap := 97, P_legal := by decide, rankCap_legal := by decide }

/-- A hash of bucket 0 and rank 53. -/
def lateHash : Hash := hashOf 0 0 0x00100000 0

/-- A hash of bucket 1 and rank 1. -/
def earlyHash : Hash := hashOf 0x80000000 0 0 1

/-- Settles O33: with the rank 53 first, `1 + 2^(-53)` is a tie and rounds to 1, so `S` ends at 0.5; with the rank 1 first
nothing is rounded, and `S` ends at `0.5 + 2^(-53)`. -/
theorem orderCanChangeLastBitsOfSum : Obligations.OrderCanChangeLastBitsOfSum := by
  refine ⟨twoRegisters, lateHash, earlyHash, _, _, serve_two_adds _ _ _, serve_two_adds _ _ _, ?_, ?_⟩
  · decide +kernel
  · have hlate : (afterTwoAdds twoRegisters lateHash earlyHash).sum = 0x3FE0000000000000 := by decide +kernel
    have hearly : (afterTwoAdds twoRegisters earlyHash lateHash).sum = 0x3FE0000000000001 := by decide +kernel
    rw [hlate, hearly]
    decide

end Sys2Proof.Machine
end

section
/-! `INIT` and the reads as commands (R100 to R103), and the rescan (R104, R118). The rescan adds up a list of reciprocals; as
long as the list is no longer than `2^q` and no register exceeds `53 - q`, every partial sum is a binary64 number, so no
addition rounds. -/

namespace Sys2Proof.Machine

open Safety Float64

/-! ### The commands -/

/-- Settles O11: the cleared block is that of the reset state, whose `S` has the value `2^P`. -/
theorem initGivesConstructionState : Obligations.InitGivesConstructionState := fun s =>
  ⟨s.clear.respond .ok 0, rfl, fun _ => rfl, rfl, (scaled_resetSum s.params).trans (pow_add _ _ _), rfl, rfl⟩

/-- Settles O12: the answer to the read, and that 32 bits of index reach no further than `2^32`. -/
theorem rdregReadsOrRefuses : Obligations.RdregReadsOrRefuses := fun s idx =>
  ⟨exec_read (i := .rdreg idx) rfl s, fun hP => by rw [hP]; exact idx.isLt⟩

/-- Settles O13: the answer to the read is `S`. -/
theorem rdsumAnswersSum : Obligations.RdsumAnswersSum := exec_read (i := .rdsum) rfl

/-- Settles O14: the answer to the read is `Z`, which fits 64 bits since `2^P` does. -/
theorem rdzcAnswersZeros : Obligations.RdzcAnswersZeros := fun s =>
  ⟨BitVec.ofNat 64 s.zeros, exec_read (i := .rdzc) rfl s, fun hz =>
    Nat.mod_eq_of_lt ((hz.trans (NB_le s.params)).trans_lt (by norm_num))⟩

/-! ### The exact sum of a list of registers -/

/-- `Σ 2^(-regs[j])` without rounding, in units of `2^-1074`. -/
def reciprocalSum (regs : List Byte) : Nat := (regs.map fun v => 2 ^ (1074 - v.toNat)).sum

theorem reciprocalSum_concat (regs : List Byte) (v : Byte) :
    reciprocalSum (regs ++ [v]) = reciprocalSum regs + 2 ^ (1074 - v.toNat) := by
  simp [reciprocalSum]

/-- Each reciprocal is at most 1. -/
theorem reciprocalSum_le {regs : List Byte} {q : Nat} (hlen : regs.length ≤ 2 ^ q) :
    reciprocalSum regs ≤ 2 ^ (q + 1074) := by
  have hle : ∀ x ∈ regs.map fun v => 2 ^ (1074 - v.toNat), x ≤ 2 ^ 1074 :=
    List.forall_mem_map.2 fun _ _ => Nat.pow_le_pow_right two_pos (Nat.sub_le _ _)
  calc reciprocalSum regs ≤ regs.length * 2 ^ 1074 := by simpa [reciprocalSum] using List.sum_le_card_nsmul _ _ hle
    _ ≤ 2 ^ q * 2 ^ 1074 := Nat.mul_le_mul_right _ hlen
    _ = 2 ^ (q + 1074) := (pow_add _ _ _).symm

/-- Registers up to `53 - q`, at most `2^q` of them, sum to a binary64 number (R14). -/
theorem reciprocalSum_representable {regs : List Byte} {q : Nat} (hlen : regs.length ≤ 2 ^ q)
    (hregs : ∀ v ∈ regs, q + v.toNat ≤ 53) : Representable (reciprocalSum regs) := by
  refine representable_of_dvd (k := q + 1021) (List.dvd_sum (List.forall_mem_map.2 fun v hv => ?_)) ?_
  · have := hregs v hv
    exact Nat.pow_dvd_pow 2 (by omega)
  · rw [show 53 + (q + 1021) = q + 1074 by omega]
    exact reciprocalSum_le hlen

/-! ### The rescan of a list of registers -/

/-- The rescan adds the last register's reciprocal last (R118). -/
theorem rescanSum_concat (regs : List Byte) (v : Byte) :
    rescanSum (regs ++ [v]) = fadd (rescanSum regs) (pow2neg v.toNat) := List.foldl_concat _ _ _ _

/-- A reciprocal is at most 1 in magnitude. -/
theorem magnitude_pow2neg_le {r : Nat} (h : r ≤ 1022) : magnitude (pow2neg r) ≤ 2 ^ 1074 := by
  rw [← natAbs_scaled, scaled_pow2neg h, Int.natAbs_pow]
  exact Nat.pow_le_pow_right two_pos (Nat.sub_le _ _)

/-- The rescanned sum is a number, and no negative zero. -/
theorem rescanSum_finite (regs : List Byte) :
    isFinite (rescanSum regs) = true ∧ rescanSum regs ≠ negZero := by
  induction regs using List.reverseRecOn with
  | nil => decide
  | append_singleton regs v ih =>
    obtain ⟨hfin, hne⟩ := ih
    have hv := v.isLt
    rw [rescanSum_concat]
    exact ⟨isFinite_fadd_of_small hfin (isFinite_pow2neg _) (magnitude_pow2neg_le (by omega)),
      fadd_ne_negZero hfin (isFinite_pow2neg _) hne⟩

/-- In the exact range no addition of the rescan rounds (R14, R118). -/
theorem scaled_rescanSum {regs : List Byte} {q : Nat} (hq : q ≤ 32) (hlen : regs.length ≤ 2 ^ q)
    (hregs : ∀ v ∈ regs, q + v.toNat ≤ 53) : scaled (rescanSum regs) = reciprocalSum regs := by
  induction regs using List.reverseRecOn with
  | nil => rfl
  | append_singleton regs v ih =>
    obtain ⟨hinit, hlast⟩ := List.forall_mem_append.1 hregs
    have hv := hlast v (List.mem_singleton_self v)
    have hsum : scaled (rescanSum regs) + scaled (pow2neg v.toNat) = reciprocalSum (regs ++ [v]) := by
      rw [ih ((by simp : regs.length ≤ (regs ++ [v]).length).trans hlen) hinit, scaled_pow2neg (by omega),
        reciprocalSum_concat]
      push_cast
      rfl
    have hlt : reciprocalSum (regs ++ [v]) < 2 ^ 2098 :=
      (reciprocalSum_le hlen).trans_lt (Nat.pow_lt_pow_right one_lt_two (by omega))
    rw [rescanSum_concat, fadd_exact (rescanSum_finite regs).1 (isFinite_pow2neg _) _ _, hsum]
    · rw [hsum]; exact reciprocalSum_representable hlen hregs
    · rw [hsum]; exact hlt

/-! ### The rescan of the block's registers -/

theorem length_sketch_regs (s : State) : s.sketch.regs.length = s.params.NB := by simp [State.sketch]

theorem mem_sketch_regs {s : State} {v : Byte} (h : v ∈ s.sketch.regs) : ∃ i < s.params.NB, Memory.read s.mem i = v := by
  simpa [State.sketch] using h

/-- The rescan counts the block's zero registers (R16, R118). -/
theorem countZeros_sketch_regs (s : State) : countZeros s.sketch.regs = zeroRegisters s := by
  rw [countZeros, State.sketch, List.countP_map, zeroRegisters, ← Nat.count_eq_card_filter_range, Nat.count]
  exact List.countP_congr fun i _ => by simp

theorem reciprocalSum_sketch_regs (s : State) : reciprocalSum s.sketch.regs = exactSum s := by
  rw [reciprocalSum, State.sketch, List.map_map]
  rfl

/-- In the exact range the rescan of the block's registers is their real sum (R14, R118). -/
theorem scaled_rescanSum_sketch {s : State} (hr : InExactRange s) : scaled (rescanSum s.sketch.regs) = exactSum s := by
  rw [← reciprocalSum_sketch_regs]
  refine scaled_rescanSum s.params.P_legal.2 (length_sketch_regs s).le fun v hv => ?_
  obtain ⟨i, -, rfl⟩ := mem_sketch_regs hv
  exact hr i

/-- Settles O50: `Z` counts the zero registers, and `S` and the rescan are finite words of one value, the real sum. -/
theorem rescanRebuildsAggregates : Obligations.RescanRebuildsAggregates := by
  intro s hs he
  refine ⟨(countZeros_sketch_regs s).trans hs.zerosExact.symm, fun hr => ?_⟩
  obtain ⟨hfin, hne⟩ := rescanSum_finite s.sketch.regs
  exact eq_of_scaled_eq hfin hne hs.sumFinite hs.sumNotNegZero ((scaled_rescanSum_sketch hr).trans (he hr).symm)

end Sys2Proof.Machine
end

section
/-! Register arrays joined by maxima, and `merge` (R115 to R119). A register of a folded or a reduced array is known by its
upper bounds: `v` bounds it exactly when `v` bounds every register that folds into it. -/

namespace Sys2Proof.Machine

/-! ### Arrays by the upper bounds of their registers -/

theorem regAt_eq_getElem {regs : List Byte} {i : Nat} (h : i < regs.length) : regAt regs i = regs[i] :=
  (List.getElem_eq_getD 0).symm

/-- Arrays of one length whose registers have the same upper bounds are equal. -/
theorem eq_of_regAt_le_iff {xs ys : List Byte} (hlen : xs.length = ys.length)
    (h : ∀ j < ys.length, ∀ v : Nat, (regAt xs j).toNat ≤ v ↔ (regAt ys j).toNat ≤ v) : xs = ys := by
  refine List.ext_getElem hlen fun j hx hy => BitVec.eq_of_toNat_eq (eq_of_forall_ge_iff fun v => ?_)
  rw [← regAt_eq_getElem hx, ← regAt_eq_getElem hy]
  exact h j hy v

/-- A bound on the registers bounds what is read at any index, inside the array or not. -/
theorem regAt_toNat_le {regs : List Byte} {n : Nat} (h : ∀ v ∈ regs, v.toNat ≤ n) (i : Nat) :
    (regAt regs i).toNat ≤ n := by
  obtain hi | hi := Nat.lt_or_ge i regs.length
  · rw [regAt_eq_getElem hi]
    exact h _ (List.getElem_mem hi)
  · rw [regAt, List.getD_eq_default _ _ hi]
    exact Nat.zero_le n

theorem max8_toNat_le_iff (a b : Byte) (v : Nat) : (max8 a b).toNat ≤ v ↔ a.toNat ≤ v ∧ b.toNat ≤ v := by
  rw [max8_toNat, max_le_iff]

/-! ### The fold into a coarser array (R117) -/

/-- One turn of `foldRegs`: register `i` of the finer array joins the register it folds into. -/
def foldInto (k : Nat) (other m : List Byte) (i : Nat) : List Byte :=
  m.set (i / 2 ^ k) (max8 (regAt m (i / 2 ^ k)) (regAt other i))

theorem foldRegs_eq_foldl (k : Nat) (recv other : List Byte) :
    foldRegs k recv other = (List.range other.length).foldl (foldInto k other) recv := rfl

theorem length_foldInto (k : Nat) (other m : List Byte) (i : Nat) : (foldInto k other m i).length = m.length :=
  List.length_set

theorem regAt_foldInto {m : List Byte} {j : Nat} (hj : j < m.length) (k : Nat) (other : List Byte) (i : Nat) :
    regAt (foldInto k other m i) j = if i / 2 ^ k = j then max8 (regAt m j) (regAt other i) else regAt m j := by
  rw [regAt_eq_getElem (by rwa [length_foldInto]), regAt_eq_getElem hj]
  simp only [foldInto, List.getElem_set]
  split
  · next hi => rw [hi, regAt_eq_getElem hj]
  · rfl

theorem regAt_foldInto_le_iff {m : List Byte} {j : Nat} (hj : j < m.length) (k : Nat) (other : List Byte) (i v : Nat) :
    (regAt (foldInto k other m i) j).toNat ≤ v ↔
      (regAt m j).toNat ≤ v ∧ (i / 2 ^ k = j → (regAt other i).toNat ≤ v) := by
  rw [regAt_foldInto hj]
  split
  · next hi => rw [max8_toNat_le_iff, forall_prop_of_true hi]
  · next hi => simp only [hi, false_imp_iff, and_true]

theorem length_foldl_foldInto (k : Nat) (other : List Byte) (is : List Nat) (m : List Byte) :
    (is.foldl (foldInto k other) m).length = m.length := by
  induction is generalizing m with
  | nil => rfl
  | cons i is ih => rw [List.foldl_cons, ih, length_foldInto]

theorem regAt_foldl_foldInto_le_iff (k : Nat) (other : List Byte) (is : List Nat) {m : List Byte} {j : Nat}
    (hj : j < m.length) (v : Nat) :
    (regAt (is.foldl (foldInto k other) m) j).toNat ≤ v ↔
      (regAt m j).toNat ≤ v ∧ ∀ i ∈ is, i / 2 ^ k = j → (regAt other i).toNat ≤ v := by
  induction is generalizing m with
  | nil => simp
  | cons i is ih =>
    rw [List.foldl_cons, ih (by rwa [length_foldInto]), regAt_foldInto_le_iff hj, List.forall_mem_cons, and_assoc]

theorem length_foldRegs (k : Nat) (recv other : List Byte) : (foldRegs k recv other).length = recv.length :=
  length_foldl_foldInto k other _ recv

/-- A folded register is the maximum of the receiver's and of those of the other that fold into it. -/
theorem regAt_foldRegs_le_iff (k : Nat) {recv : List Byte} (other : List Byte) {j : Nat} (hj : j < recv.length)
    (v : Nat) :
    (regAt (foldRegs k recv other) j).toNat ≤ v ↔
      (regAt recv j).toNat ≤ v ∧ ∀ i < other.length, i / 2 ^ k = j → (regAt other i).toNat ≤ v := by
  rw [foldRegs_eq_foldl, regAt_foldl_foldInto_le_iff k other _ hj]
  simp only [List.mem_range]

/-- An array of the receiver's own length takes the place of registers that it bounds. -/
theorem foldRegs_zero {recv other : List Byte} (hlen : recv.length = other.length)
    (hle : ∀ j, (regAt recv j).toNat ≤ (regAt other j).toNat) : foldRegs 0 recv other = other := by
  refine eq_of_regAt_le_iff ((length_foldRegs 0 recv other).trans hlen) fun j hj v => ?_
  rw [regAt_foldRegs_le_iff 0 other (hj.trans_eq hlen.symm)]
  simp only [pow_zero, Nat.div_one]
  refine ⟨fun ⟨_, hother⟩ => hother j hj rfl, fun hv => ⟨(hle j).trans hv, ?_⟩⟩
  rintro _ - rfl
  exact hv

/-! ### The reduction to a coarser array (R116) -/

theorem length_reduceRegs (k n : Nat) (recv other : List Byte) : (reduceRegs k n recv other).length = n := by
  simp [reduceRegs]

theorem foldl_max8_le_iff (f : Nat → Byte) (ts : List Nat) (m : Byte) (v : Nat) :
    (ts.foldl (fun m t => max8 m (f t)) m).toNat ≤ v ↔ m.toNat ≤ v ∧ ∀ t ∈ ts, (f t).toNat ≤ v := by
  induction ts generalizing m with
  | nil => simp
  | cons t ts ih => rw [List.foldl_cons, ih, max8_toNat_le_iff, List.forall_mem_cons, and_assoc]

/-- The indices that fold into `j` are `j * d` and the `d - 1` after it. -/
theorem forall_div_eq_iff {d : Nat} (hd : 0 < d) (j : Nat) (Q : Nat → Prop) :
    (∀ i, i / d = j → Q i) ↔ ∀ t < d, Q (j * d + t) := by
  refine ⟨fun h t ht => h _ ?_, fun h i hi => ?_⟩
  · rw [mul_comm, Nat.mul_add_div hd, Nat.div_eq_of_lt ht, Nat.add_zero]
  · rw [← Nat.div_add_mod' i d, hi]
    exact h _ (Nat.mod_lt i hd)

/-- A reduced register is the maximum of the receiver's that fold into it and of the other's. -/
theorem regAt_reduceRegs_le_iff (k : Nat) {n j : Nat} (hj : j < n) (recv other : List Byte) (v : Nat) :
    (regAt (reduceRegs k n recv other) j).toNat ≤ v ↔
      (∀ i, i / 2 ^ k = j → (regAt recv i).toNat ≤ v) ∧ (regAt other j).toNat ≤ v := by
  rw [regAt_eq_getElem (by rwa [length_reduceRegs]), forall_div_eq_iff (by positivity)]
  simp only [reduceRegs, List.getElem_map, List.getElem_range, foldl_max8_le_iff, List.mem_range]
  exact and_comm

/-! ### `merge` -/

/-- The checks of a well-formed sketch, one by one. -/
theorem sketchWf_iff (k : Sketch) : sketchWf k = true ↔
    (1 ≤ k.precision ∧ k.precision ≤ 32) ∧ k.regs.length = 2 ^ k.precision ∧ (∀ v ∈ k.regs, v.toNat ≤ 97) ∧
      k.alpha = alpha (2 ^ k.precision) := by
  simp [sketchWf, and_assoc]

/-- A finer receiver is reduced to the other's precision (R116). -/
theorem merge_of_lt {recv other : Sketch} (h : other.precision < recv.precision) : merge recv other =
    rescan { recv with
      precision := other.precision
      regs := reduceRegs (recv.precision - other.precision) (2 ^ other.precision) recv.regs other.regs
      alpha := alpha (2 ^ other.precision) } := if_pos h

/-- Otherwise the other is folded into the receiver (R117). -/
theorem merge_of_le {recv other : Sketch} (h : recv.precision ≤ other.precision) : merge recv other =
    rescan { recv with regs := foldRegs (other.precision - recv.precision) recv.regs other.regs } :=
  if_neg (not_lt.2 h)

theorem merge_precision (recv other : Sketch) :
    (merge recv other).precision = min recv.precision other.precision := by
  obtain h | h := Nat.lt_or_ge other.precision recv.precision
  · rw [merge_of_lt h, min_eq_right h.le]
    rfl
  · rw [merge_of_le h, min_eq_left h]
    rfl

theorem length_merge_regs {recv other : Sketch} (hlen : recv.regs.length = 2 ^ recv.precision) :
    (merge recv other).regs.length = 2 ^ min recv.precision other.precision := by
  obtain h | h := Nat.lt_or_ge other.precision recv.precision
  · rw [merge_of_lt h, min_eq_right h.le]
    exact length_reduceRegs _ _ _ _
  · rw [merge_of_le h, min_eq_left h]
    exact (length_foldRegs _ _ _).trans hlen

theorem merge_alpha {recv other : Sketch} (h : recv.alpha = alpha (2 ^ recv.precision)) :
    (merge recv other).alpha = alpha (2 ^ min recv.precision other.precision) := by
  obtain hp | hp := Nat.lt_or_ge other.precision recv.precision
  · rw [merge_of_lt hp, min_eq_right hp.le]
    rfl
  · rw [merge_of_le hp, min_eq_left hp]
    exact h

/-- At a sketch's own precision only register `j` folds into `j`. -/
theorem forall_fold_self_iff {p j : Nat} (hj : j < 2 ^ p) (Q : Nat → Prop) :
    (∀ i < 2 ^ p, i / 2 ^ (p - p) = j → Q i) ↔ Q j := by
  simp only [Nat.sub_self, pow_zero, Nat.div_one]
  refine ⟨fun h => h j hj rfl, ?_⟩
  rintro h _ - rfl
  exact h

/-- An index that folds into one of `2^p` is one of the finer array's. -/
theorem lt_of_div_lt {p q i : Nat} (hpq : p ≤ q) (h : i / 2 ^ (q - p) < 2 ^ p) : i < 2 ^ q := by
  rwa [Nat.div_lt_iff_lt_mul (by positivity), ← pow_add, Nat.add_sub_cancel' hpq] at h

/-- Settles O47: by which of the two sketches is the finer, and so reduced or folded. -/
theorem mergeTakesMaximaOfFoldedRegisters : Obligations.MergeTakesMaximaOfFoldedRegisters := by
  intro recv other hrecv hother p
  obtain ⟨-, hrlen, -, -⟩ := (sketchWf_iff recv).1 hrecv
  obtain ⟨-, holen, -, -⟩ := (sketchWf_iff other).1 hother
  refine ⟨merge_precision recv other, fun j hj v => ?_⟩
  obtain h | h := Nat.lt_or_ge other.precision recv.precision
  · have hp : p = other.precision := min_eq_right h.le
    rw [hp] at hj ⊢
    rw [forall_fold_self_iff hj, merge_of_lt h]
    refine (regAt_reduceRegs_le_iff _ hj recv.regs other.regs v).trans (and_congr_left' ?_)
    exact ⟨fun hall i _ => hall i, fun hall i hi => hall i (lt_of_div_lt h.le (hi ▸ hj)) hi⟩
  · have hp : p = recv.precision := min_eq_left h
    rw [hp] at hj ⊢
    rw [forall_fold_self_iff hj, merge_of_le h, ← holen]
    exact regAt_foldRegs_le_iff _ other.regs (hj.trans_eq hrlen.symm) v

/-- Settles O46: the length, the ranks and `alpha` of the result; both aggregates are the rescan's in either case. -/
theorem mergeEndsAtCoarserPrecision : Obligations.MergeEndsAtCoarserPrecision := by
  intro recv other hrecv hother
  obtain ⟨hrp, hrlen, hrcap, hralpha⟩ := (sketchWf_iff recv).1 hrecv
  obtain ⟨hop, -, hocap, -⟩ := (sketchWf_iff other).1 hother
  have hprec := merge_precision recv other
  have hlen := length_merge_regs (other := other) hrlen
  have hcap : ∀ v ∈ (merge recv other).regs, v.toNat ≤ 97 := by
    intro v hv
    obtain ⟨j, hj, rfl⟩ := List.getElem_of_mem hv
    rw [← regAt_eq_getElem hj]
    obtain ⟨-, hmax⟩ := mergeTakesMaximaOfFoldedRegisters recv other hrecv hother
    exact (hmax j (hj.trans_eq hlen) 97).2
      ⟨fun i _ _ => regAt_toNat_le hrcap i, fun i _ _ => regAt_toNat_le hocap i⟩
  have hwf : sketchWf (merge recv other) = true := by
    rw [sketchWf_iff, hprec]
    exact ⟨by omega, hlen, hcap, merge_alpha hralpha⟩
  refine ⟨hprec, hwf, ?_⟩
  obtain h | h := Nat.lt_or_ge other.precision recv.precision
  · rw [merge_of_lt h]
    exact ⟨rfl, rfl⟩
  · rw [merge_of_le h]
    exact ⟨rfl, rfl⟩

/-- Settles O48: the copy, folded by 1, takes the place of registers equal to its own. -/
theorem mergeWithItselfKeepsRegisters : Obligations.MergeWithItselfKeepsRegisters := by
  intro k _
  rw [merge_of_le le_rfl, Nat.sub_self]
  exact foldRegs_zero rfl fun _ => le_rfl

end Sys2Proof.Machine
end

section
/-! Restoring a saved array by synthetic `ADD`s (R121). A synthetic hash has the bucket and the rank asked for, so the block's
registers end with the upper bounds of the folded array; from the cleared block, those of the saved array itself. -/

namespace Sys2Proof.Machine

open Safety

/-! ### Synthetic hashes -/

/-- The hash of the synthetic `ADD` whose bucket is `b` and whose rank is `r` (R121). -/
def syntheticHash (p : Params) (b r : Nat) : Hash := BitVec.ofNat 32 (b * 2 ^ (32 - p.P)) ++ syntheticRemainder r

/-- A synthetic `ADD` is the `ADD` of its hash. -/
theorem addOf_syntheticHash (p : Params) (b r : Nat) : addOf (syntheticHash p b r) = syntheticAdd p b r := by
  have hlow {k : Nat} (hk : k + 32 ≤ 96) :
      (syntheticHash p b r).extractLsb' k 32 = (syntheticRemainder r).extractLsb' k 32 :=
    BitVec.extractLsb'_append_eq_of_add_le hk
  rw [addOf, word1, word2, word3, hlow (by norm_num), hlow (by norm_num), hlow (by norm_num)]
  exact congrArg (Instr.add · _ _ _) BitVec.extractLsb'_append_eq_left

theorem bucketOf_syntheticHash {p : Params} {b : Nat} (hb : b < p.NB) (r : Nat) :
    bucketOf p (syntheticHash p b r) = b := by
  have hP := p.P_legal
  have hlt : b * 2 ^ (32 - p.P) < 2 ^ 32 := by
    calc b * 2 ^ (32 - p.P) < 2 ^ p.P * 2 ^ (32 - p.P) := (Nat.mul_lt_mul_right (by positivity)).2 hb
      _ = 2 ^ 32 := by rw [← pow_add, Nat.add_sub_cancel' hP.2]
  have hword : word0 (syntheticHash p b r) = BitVec.ofNat 32 (b * 2 ^ (32 - p.P)) := BitVec.extractLsb'_append_eq_left
  rw [bucketOf_eq_div, hword, BitVec.toNat_ofNat, Nat.mod_eq_of_lt hlt, Nat.mul_div_cancel _ (by positivity)]

/-- The synthetic remainder of rank `r` has its first set bit at `r - 1`, or none for 97. -/
theorem ctz96_syntheticRemainder {r : Nat} (h1 : 1 ≤ r) (h97 : r ≤ 97) : ctz96 (syntheticRemainder r) = r - 1 := by
  rw [syntheticRemainder]
  split
  · next h96 =>
    have hbit (j : Nat) : (BitVec.ofNat 96 (2 ^ (r - 1))).getLsbD j = decide (r - 1 = j) := by
      rw [BitVec.getLsbD_ofNat, Nat.testBit_two_pow, Bool.and_eq_right_iff_imp, decide_eq_true_eq, decide_eq_true_eq]
      omega
    refine ctz96_eq ?_ fun j hj => ?_
    · rw [hbit, decide_eq_true rfl]
    · rw [hbit, decide_eq_false (by omega)]
  · rw [ctz96_zero]
    omega

theorem rankOf_syntheticHash {p : Params} {r : Nat} (h1 : 1 ≤ r) (hcap : r ≤ p.rankCap) (b : Nat) :
    rankOf p (syntheticHash p b r) = r := by
  have h97 := p.rankCap_legal.2
  have hrem : remainder (syntheticHash p b r) = syntheticRemainder r := BitVec.extractLsb'_append_eq_right
  rw [rankOf, hrem, ctz96_syntheticRemainder h1 (by omega), Nat.add_sub_cancel' h1, min_eq_left hcap]

/-! ### The registers after the synthetic `ADD`s -/

/-- The hashes of the synthetic `ADD`s of an array. -/
def syntheticHashes (p : Params) (k : Nat) (regs : List Byte) : List Hash :=
  ((List.range regs.length).filter (fun i => regAt regs i != 0)).map
    fun i => syntheticHash p (i / 2 ^ k) (regAt regs i).toNat

theorem syntheticAdds_eq_map (p : Params) (k : Nat) (regs : List Byte) :
    syntheticAdds p k regs = (syntheticHashes p k regs).map addOf := by
  simp only [syntheticAdds, syntheticHashes, List.map_map, Function.comp_def, addOf_syntheticHash]

/-- The synthetic hashes of bucket `j` have the ranks of the registers that fold into `j`, zeros aside. -/
theorem rankOf_syntheticHashes_le_iff {p : Params} {k : Nat} {regs : List Byte} (hlen : regs.length = 2 ^ (p.P + k))
    (hcap : ∀ v ∈ regs, v.toNat ≤ p.rankCap) (j v : Nat) :
    (∀ h ∈ syntheticHashes p k regs, bucketOf p h = j → rankOf p h ≤ v) ↔
      ∀ i < regs.length, i / 2 ^ k = j → (regAt regs i).toNat ≤ v := by
  simp only [syntheticHashes, List.forall_mem_map, List.mem_filter, List.mem_range, bne_iff_ne, and_imp]
  refine forall₂_congr fun i hi => ?_
  have hb : i / 2 ^ k < p.NB := by rwa [Nat.div_lt_iff_lt_mul (by positivity), ← pow_add, ← hlen]
  rw [bucketOf_syntheticHash hb]
  by_cases h0 : regAt regs i = 0
  · simp [h0]
  · have h1 : 1 ≤ (regAt regs i).toNat := Nat.one_le_iff_ne_zero.2 fun hz => h0 (BitVec.eq_of_toNat_eq hz)
    rw [rankOf_syntheticHash h1 (regAt_toNat_le hcap i), forall_prop_of_true h0]

theorem regAt_sketch_regs {s : State} {j : Nat} (hj : j < s.params.NB) : regAt s.sketch.regs j = Memory.read s.mem j := by
  rw [regAt_eq_getElem (by rwa [length_sketch_regs])]
  simp [State.sketch]

/-- No run changes the parameters (R3). -/
theorem serve_params {es : List PortEvent} {s t : State} (h : serve es s = .next t) : t.params = s.params :=
  serve_keeps (I := fun u => u.params = s.params) (fun _ _ hb hu => hb.1.trans hu)
    (fun u w hu hstep => (parametersNeverChange u w hstep).trans hu) rfl h

/-- Synthetic `ADD`s fold the array into the block's registers (R117, R121). -/
theorem sketch_regs_of_serve_syntheticAdds {s t : State} {k : Nat} {regs : List Byte}
    (hlen : regs.length = 2 ^ (s.params.P + k)) (hcap : ∀ v ∈ regs, v.toNat ≤ s.params.rankCap)
    (h : serve (commandEvents (syntheticAdds s.params k regs)) s = .next t) :
    t.sketch.regs = foldRegs k s.sketch.regs regs := by
  have hp := serve_params h
  rw [syntheticAdds_eq_map] at h
  refine eq_of_regAt_le_iff ?_ fun j hj v => ?_
  · rw [length_foldRegs, length_sketch_regs, length_sketch_regs, hp]
  · rw [length_foldRegs] at hj
    have hj' : j < s.params.NB := hj.trans_eq (length_sketch_regs s)
    rw [regAt_sketch_regs (by rwa [hp]), read_of_serve_adds h, foldl_raiseByRank_le_iff,
      rankOf_syntheticHashes_le_iff hlen hcap, regAt_foldRegs_le_iff k regs hj, regAt_sketch_regs hj']

/-- Settles O52: the `ADD`s complete, and each register has the upper bounds of the folded one. -/
theorem syntheticAddsFoldIntoBlock : Obligations.SyntheticAddsFoldIntoBlock := by
  intro s k regs hlen hcap
  obtain ⟨t, -, hserve, -⟩ := serve_completes (commandEvents (syntheticAdds s.params k regs)) s
  exact ⟨t, hserve, sketch_regs_of_serve_syntheticAdds hlen hcap hserve⟩

/-! ### Restoring an array -/

/-- The first of a sequence of events being `INIT`, the rest is served from the cleared block. -/
theorem serve_init_cons (es : List PortEvent) (s : State) :
    serve (.command (encode .init) :: es) s = serve es (s.clear.respond .ok 0) :=
  serve_cons (step_instr (s := { s with pending := [.command (encode .init)] }) rfl (decode_encode .init)) es

/-- The cleared block's registers are all zero (R20). -/
theorem regAt_sketch_regs_clear_toNat (s : State) (j : Nat) : (regAt s.clear.sketch.regs j).toNat = 0 := by
  have hzero : ∀ v ∈ s.clear.sketch.regs, v.toNat ≤ 0 := by
    intro v hv
    obtain ⟨_, -, rfl⟩ := mem_sketch_regs hv
    exact le_rfl
  exact Nat.le_zero.1 (regAt_toNat_le hzero j)

/-- Settles O51: the array folds by 1 into a block of zeros; the run from the cleared block is sound, so the rescan gives the
aggregates. -/
theorem restorePutsSketchBack : Obligations.RestorePutsSketchBack := by
  intro s regs hlen hcap
  obtain ⟨t, -, hserve, -⟩ := serve_completes (commandEvents (syntheticAdds s.params 0 regs)) (s.clear.respond .ok 0)
  have hcleared : Sound s.params (s.clear.respond .ok 0) :=
    sound_of_sameBlock s.clear _ (sameBlock_refl _) ⟨rfl, inv_clear s, sumExact_clear s⟩
  obtain ⟨-, hinv, hsum⟩ := serve_keeps sound_of_sameBlock step_keeps_sound hcleared hserve
  have hregs : t.sketch.regs = regs := by
    rw [sketch_regs_of_serve_syntheticAdds (s := s.clear.respond .ok 0) hlen hcap hserve]
    refine foldRegs_zero ((length_sketch_regs _).trans hlen.symm) fun j => ?_
    exact (regAt_sketch_regs_clear_toNat s j).trans_le (Nat.zero_le _)
  obtain ⟨hzeros, hrescan⟩ := rescanRebuildsAggregates t hinv hsum
  rw [hregs] at hzeros hrescan
  exact ⟨t, (serve_init_cons _ s).trans hserve, hregs, hzeros.symm, fun hr => (hrescan hr).symm⟩

end Sys2Proof.Machine
end

section
/-! Quotients and products that do not depend on rounding: a number over itself, and a number times `+0`. -/

namespace Sys2Proof.Machine.Float64

/-- A common factor does not show in the rounded quotient. -/
theorem divNearestEven_mul_left {c : Nat} (hc : 0 < c) (n d : Nat) :
    divNearestEven (c * n) (c * d) = divNearestEven n d := by
  simp only [divNearestEven, Nat.mul_div_mul_left _ _ hc, Nat.mul_mod_mul_left, Nat.mul_left_comm 2 c,
    Nat.mul_lt_mul_left hc]

theorem roundMagnitude_mul_left {c : Nat} (hc : 0 < c) (n d : Nat) :
    roundMagnitude (c * n) (c * d) = roundMagnitude n d := by
  simp only [roundMagnitude, Nat.mul_div_mul_left _ _ hc, mul_assoc, divNearestEven_mul_left hc]

/-- A finite number other than zero, divided by itself, is exactly 1. -/
theorem fdiv_self {x : Word64} (hx : isFinite x = true) (h0 : magnitude x ≠ 0) : fdiv x x = ofNat 1 := by
  obtain ⟨hnan, hinf⟩ := isFinite_not_special hx
  have hround := roundMagnitude_mul_left (Nat.pos_of_ne_zero h0) unit 1
  rw [mul_one] at hround
  simp only [fdiv, hnan, hinf, h0, Bool.or_self, Bool.false_eq_true, if_false, bne_self_eq_false, hround, ofNat, ofRatio,
    one_mul]

/-- A finite positive number times `+0` is `+0`. -/
theorem fmul_posZero {x : Word64} (hx : isFinite x = true) (hs : sign x = false) : fmul x posZero = posZero := by
  obtain ⟨hnan, hinf⟩ := isFinite_not_special hx
  have hmag : magnitude posZero = 0 := rfl
  have hround : roundMagnitude 0 unit = 0 := by decide +kernel
  simp only [fmul, hnan, hinf, hs, hmag, mul_zero, hround]
  rfl

end Sys2Proof.Machine.Float64
end

section
/-! The estimate of the empty sketch (R111, R113), and the relative error (R114). Of the reset state's `S` and `Z` the raw
estimate is below the small-range threshold, which is evaluated for each precision; the corrected estimate is then
`NB * ln(NB / NB) = NB * ln(1) = +0`. -/

namespace Sys2Proof.Machine

open Float64

/-- `NB` as a double is `S` after reset. -/
theorem ofNat_NB (p : Params) : ofNat p.NB = resetSum p := by
  have hP := p.P_legal
  have hval : p.NB * unit = fieldsValue ((1023 + p.P) * 2 ^ 52) := by
    rw [fieldsValue_power (by omega), Params.NB, unit, ← pow_add]
    congr 1
    omega
  rw [ofNat, ofRatio, hval, roundMagnitude_fieldsValue (by simp only [infBits]; omega), resetSum, ofNat_eq_pack]

theorem hostLn_one : hostLn (ofNat 1) = posZero := if_pos rfl

/-- The raw estimate of the empty sketch, about `0.72 * NB`, is below `2.5 * NB`, at each of the 32 precisions. -/
theorem rawEstimate_empty_lt : ∀ P ∈ Finset.Icc 1 32,
    flt (rawEstimate (2 ^ P) (BitVec.ofNat 64 ((1023 + P) * 2 ^ 52))) (fmul (ofRatio 5 2) (ofNat (2 ^ P))) = true := by
  decide +kernel

/-- The small-range correction applies to the empty sketch (R111). -/
theorem smallRange_empty (p : Params) : smallRange p.NB (resetSum p) p.NB = true := by
  rw [smallRange, Bool.and_eq_true, decide_eq_true_eq]
  exact ⟨Nat.one_le_two_pow, rawEstimate_empty_lt p.P (Finset.mem_Icc.2 p.P_legal)⟩

/-- The empty sketch's estimate is `+0`, since `ln(1) = +0` (R111, R122). -/
theorem estimate_empty (p : Params) : estimate p.NB (resetSum p) p.NB = posZero := by
  have hP := p.P_legal
  have hmag : magnitude (resetSum p) ≠ 0 := by
    rw [← natAbs_scaled, scaled_resetSum]
    exact Int.natAbs_ne_zero.2 (by positivity)
  rw [estimate, if_pos (smallRange_empty p), ofNat_NB, fdiv_self (isFinite_resetSum p) hmag, hostLn_one]
  exact fmul_posZero (isFinite_resetSum p) (sign_ofNat_power (by omega))

/-- Settles O44: the estimate is `+0`, and `floor(0 + 0.5) = 0`. -/
theorem countOfEmptySketchIsZero : Obligations.CountOfEmptySketchIsZero := by
  intro p
  have hpos : 0 < scaled (resetSum p) := by rw [scaled_resetSum]; positivity
  have hhalf : isFinite (fadd posZero (ofRatio 1 2)) = true ∧ floor (fadd posZero (ofRatio 1 2)) = 0 := by
    decide +kernel
  obtain ⟨hfin, hfloor⟩ := hhalf
  simp only [count, estimate_empty, hpos, hfin, and_self, if_true, hfloor]

/-- Settles O45: the five values, evaluated. -/
theorem relativeErrorValues : Obligations.RelativeErrorValues := by
  unfold Obligations.RelativeErrorValues
  decide +kernel

end Sys2Proof.Machine
end

section
/-! The cause of each status (R141 to R143): the decode alone answers `ILLEGAL`, and of the commands only `RDREG` is ever
refused, for an index outside the array. -/

namespace Sys2Proof.Machine

open Safety

/-- A command that is no `RDREG` outside the array is executed and answers `OK` (R140, R142). -/
theorem exec_answers_ok {i : Instr} {s : State} (h : ∀ idx, i = .rdreg idx → idx.toNat < s.params.NB) :
    ∃ t d, exec i s = .next t ∧ t.responses = s.responses ++ [{ status := .ok, data := d }] := by
  cases i with
  | add w0 w1 w2 w3 => exact ⟨_, _, exec_add_eq w0 w1 w2 w3 s, rfl⟩
  | rdreg idx => exact ⟨_, _, exec_rdreg_ok (h idx rfl), rfl⟩
  | addn | init | rdsum | rdzc => exact ⟨_, _, rfl, rfl⟩

/-- Settles O19: the decode comes first, then the range check of `RDREG`, and each refusal only adds its response. -/
theorem statusNamesItsCause : Obligations.StatusNamesItsCause := by
  intro s c rest hp
  cases hd : decode c with
  | illegal why =>
    exact ⟨_, .illegal, 0, step_illegal hp hd, rfl, iff_of_true rfl ⟨why, rfl⟩, iff_of_false nofun nofun,
      fun _ => ⟨sameBlock_refl s, rfl⟩⟩
  | instr i =>
    by_cases hrange : ∃ idx, i = .rdreg idx ∧ s.params.NB ≤ idx.toNat
    · obtain ⟨idx, rfl, hidx⟩ := hrange
      have hstep := (step_instr hp hd).trans (exec_rdreg_range (s := s.take rest) hidx)
      exact ⟨_, .range, 0, hstep, rfl, iff_of_false nofun nofun, iff_of_true rfl ⟨idx, rfl, hidx⟩,
        fun _ => ⟨sameBlock_refl s, rfl⟩⟩
    · have hin : ∀ idx, i = .rdreg idx → idx.toNat < s.params.NB := fun idx hi =>
        not_le.1 fun hle => hrange ⟨idx, hi, hle⟩
      obtain ⟨t, d, hx, hresp⟩ := exec_answers_ok (s := s.take rest) hin
      refine ⟨t, .ok, d, (step_instr hp hd).trans hx, hresp, iff_of_false nofun nofun, iff_of_false nofun ?_,
        fun hok => absurd rfl hok⟩
      rintro ⟨idx, hi, hle⟩
      exact hrange ⟨idx, Decoded.instr.inj hi, hle⟩

end Sys2Proof.Machine
end

section
/-! Reset and `INIT` (R160, R161): both clear the block, and only `INIT` answers. -/

namespace Sys2Proof.Machine

open Safety

/-- The step on the word of `INIT` clears the block as a reset does (`step_reset`), and answers `OK`, data 0 (R100). -/
theorem step_init {s : State} {rest : List PortEvent} (hp : s.pending = .command (encode .init) :: rest) :
    step s = .next ((s.take rest).clear.respond .ok 0) :=
  step_instr hp (decode_encode .init)

/-- Settles O21: each of the two steps leaves the cleared block, and the response of `INIT` is no part of the block. -/
theorem resetAndInitAgree : Obligations.ResetAndInitAgree := by
  intro s rest
  have hreset : step { s with pending := .reset :: rest } = .next (s.take rest).clear := step_reset rfl
  have hinit : step { s with pending := .command (encode .init) :: rest } =
      .next ((s.take rest).clear.respond .ok 0) := step_init rfl
  have hblock : sameBlock (s.take rest).clear ((s.take rest).clear.respond .ok 0) := sameBlock_refl _
  exact ⟨_, _, hreset, hinit, hblock, rfl, rfl⟩

end Sys2Proof.Machine
end
